-- ==== Sys2Proof/Word.lean ====
section
/-! DEFINITION. The word of the machine: 64 bits read as a signed two's-complement integer (R5, D1). -/

namespace Sys2Proof

/-- R5: one memory cell, `rb`, an input, an output, a literal or an instruction word.
Its value is `BitVec.toInt`, which lies in `[wmin, wmax]` by construction. -/
abbrev Word := BitVec 64

/-- R6: `WMIN = -2^63`. -/
abbrev wmin : Int := -9223372036854775808

/-- R6: `WMAX = 2^63 - 1`. -/
abbrev wmax : Int := 9223372036854775807

/-- R6: `inRange(v)`. -/
abbrev InRange (v : Int) : Prop := wmin ≤ v ∧ v ≤ wmax

/-- The word of an integer that has passed the range check of R186. -/
abbrev Word.ofInt (v : Int) : Word := BitVec.ofInt 64 v

end Sys2Proof
end

