-- ==== Sys2Proof/Syntax.lean ====
section
/-! DEFINITION. The instructions as syntax: ten constructors, one for each row of the opcode table (R70), each parameter
a mode and a parameter word (R67, R68). -/

namespace Sys2Proof

/-- R63, R67: the value of a mode digit. There are exactly ten values, one for each decimal digit: the three modes, and
the seven digits 3 to 9 that no mode has. The latter are syntax too, because the error they raise (R72) has its place in the
order of R182, after the errors of the parameters before it. -/
inductive Mode where
  /-- Digit 0: the parameter word is an address. -/
  | position
  /-- Digit 1: the parameter word is the operand. -/
  | immediate
  /-- Digit 2: the parameter word is an offset to `rb`. -/
  | relative
  /-- Digit `k + 3`, which is no mode (R72, D6). -/
  | unassigned (k : Fin 7)
deriving DecidableEq, Repr

/-- R67, R68: one parameter, its mode digit and its whole parameter word. -/
structure Param where
  mode : Mode
  word : Word
deriving DecidableEq, Repr

/-- R70: the instruction set. `inp` is the table's `in`, whose name Lean reserves. -/
inductive Instr where
  /-- Opcode 1, R110. -/
  | add (a b dst : Param)
  /-- Opcode 2, R111. -/
  | mul (a b dst : Param)
  /-- Opcode 3, `in`, R120. -/
  | inp (dst : Param)
  /-- Opcode 4, R121. -/
  | out (a : Param)
  /-- Opcode 5, R130. -/
  | jt (a target : Param)
  /-- Opcode 6, R131. -/
  | jf (a target : Param)
  /-- Opcode 7, R140. -/
  | lt (a b dst : Param)
  /-- Opcode 8, R141. -/
  | eq (a b dst : Param)
  /-- Opcode 9, R150. -/
  | arb (a : Param)
  /-- Opcode 99, R151. -/
  | hlt
deriving DecidableEq, Repr

/-- R67, R69: how an instruction uses a parameter. -/
inductive Access where
  /-- `R`: a read parameter. -/
  | read
  /-- `W`: a write-target parameter. -/
  | write
deriving DecidableEq, Repr

end Sys2Proof
end

