-- ==== Sys2Proof/WellFormed.lean ====
section
/-! DEFINITION. Which instructions are well formed: every mode digit legal for its parameter (R67, R72). An ill-formed
instruction decodes and executes too: it raises InvalidOperand, unless an error that R182 puts first is raised. -/

namespace Sys2Proof

/-- R67: modes 0, 1 and 2 are legal for a read parameter. -/
def Mode.readable : Mode → Bool
  | .position => true
  | .immediate => true
  | .relative => true
  | .unassigned _ => false

/-- R67, R69: modes 0 and 2 are legal for a write target. -/
def Mode.writable : Mode → Bool
  | .position => true
  | .immediate => false
  | .relative => true
  | .unassigned _ => false

/-- R67: the legal mode digits of each format. -/
def Instr.wf : Instr → Bool
  | .add a b dst => a.mode.readable && b.mode.readable && dst.mode.writable
  | .mul a b dst => a.mode.readable && b.mode.readable && dst.mode.writable
  | .inp dst => dst.mode.writable
  | .out a => a.mode.readable
  | .jt a target => a.mode.readable && target.mode.readable
  | .jf a target => a.mode.readable && target.mode.readable
  | .lt a b dst => a.mode.readable && b.mode.readable && dst.mode.writable
  | .eq a b dst => a.mode.readable && b.mode.readable && dst.mode.writable
  | .arb a => a.mode.readable
  | .hlt => true

end Sys2Proof
end

