-- ==== Sys2Proof/Decode.lean ====
section
/-! DEFINITION. The decimal decoder, total on any four words (R60 to R75), and after it the encoder (R75). -/

namespace Sys2Proof

/-- R7: `digit(n, i) = floor(n / 10^i) mod 10`. -/
def digit (n i : Nat) : Nat := n / 10 ^ i % 10

/-- R63: the mode of a mode digit. -/
def Mode.ofDigit : Nat → Mode
  | 0 => .position
  | 1 => .immediate
  | 2 => .relative
  | k + 3 => .unassigned (Fin.ofNat 7 k)

/-- R63, R75: the digit of a mode. -/
def Mode.digit : Mode → Nat
  | .position => 0
  | .immediate => 1
  | .relative => 2
  | .unassigned k => k.val + 3

/-- R61, R64: an instruction word and the three words after it, as many as the longest instruction has.
DEDUCED, safe (log 6): a read has no side effect (R42), so reading parameter words before the opcode is known legal, or more
of them than the opcode has, cannot be observed. -/
structure Window where
  w : Word
  p1 : Word
  p2 : Word
  p3 : Word
deriving DecidableEq, Repr

/-- Why the decoder refuses a word. -/
inductive Reject where
  /-- R66, R71: a negative instruction word, or an opcode outside the table. -/
  | invalidOpcode
deriving DecidableEq, Repr

/-- R62: `w mod 100` of a non-negative instruction word. -/
def opcodeOf (n : Nat) : Nat := n % 100

/-- R63, R64: parameter `i` of the instruction word `n`, with its parameter word. -/
def paramOf (n i : Nat) (p : Word) : Param := ⟨Mode.ofDigit (digit n (i + 1)), p⟩

/-- The table of R70 on a non-negative instruction word `n`; mode digits beyond the opcode's parameters are not looked
at (R65). -/
def decodeOpcode (n : Nat) (f : Window) : Except Reject Instr :=
  match opcodeOf n with
  | 1 => .ok (.add (paramOf n 1 f.p1) (paramOf n 2 f.p2) (paramOf n 3 f.p3))
  | 2 => .ok (.mul (paramOf n 1 f.p1) (paramOf n 2 f.p2) (paramOf n 3 f.p3))
  | 3 => .ok (.inp (paramOf n 1 f.p1))
  | 4 => .ok (.out (paramOf n 1 f.p1))
  | 5 => .ok (.jt (paramOf n 1 f.p1) (paramOf n 2 f.p2))
  | 6 => .ok (.jf (paramOf n 1 f.p1) (paramOf n 2 f.p2))
  | 7 => .ok (.lt (paramOf n 1 f.p1) (paramOf n 2 f.p2) (paramOf n 3 f.p3))
  | 8 => .ok (.eq (paramOf n 1 f.p1) (paramOf n 2 f.p2) (paramOf n 3 f.p3))
  | 9 => .ok (.arb (paramOf n 1 f.p1))
  | 99 => .ok .hlt
  | _ => .error .invalidOpcode

/-- R92: decode one instruction. A negative instruction word has no opcode (R66, D5). -/
def decode (f : Window) : Except Reject Instr :=
  if f.w.toInt < 0 then .error .invalidOpcode else decodeOpcode f.w.toInt.toNat f

/-- R70: the opcode of an instruction. -/
def Instr.opcode : Instr → Nat
  | .add _ _ _ => 1
  | .mul _ _ _ => 2
  | .inp _ => 3
  | .out _ => 4
  | .jt _ _ => 5
  | .jf _ _ => 6
  | .lt _ _ _ => 7
  | .eq _ _ _ => 8
  | .arb _ => 9
  | .hlt => 99

/-- R67, R69: the parameters of an instruction in order, each with its use. -/
def Instr.params : Instr → List (Access × Param)
  | .add a b dst => [(.read, a), (.read, b), (.write, dst)]
  | .mul a b dst => [(.read, a), (.read, b), (.write, dst)]
  | .inp dst => [(.write, dst)]
  | .out a => [(.read, a)]
  | .jt a target => [(.read, a), (.read, target)]
  | .jf a target => [(.read, a), (.read, target)]
  | .lt a b dst => [(.read, a), (.read, b), (.write, dst)]
  | .eq a b dst => [(.read, a), (.read, b), (.write, dst)]
  | .arb a => [(.read, a)]
  | .hlt => []

/-- R64: the words an instruction occupies, `1 + k`. -/
def Instr.length (i : Instr) : Nat := 1 + i.params.length

/-- R75: `100*m1 + 1000*m2 + 10000*m3`, the first mode at weight `weight`. -/
def modeDigits (weight : Nat) : List (Access × Param) → Nat
  | [] => 0
  | (_, p) :: ps => weight * p.mode.digit + modeDigits (10 * weight) ps

/-- R75: the instruction word, its shortest form. -/
def encodeWord (i : Instr) : Word := BitVec.ofNat 64 (i.opcode + modeDigits 100 i.params)

/-- R75: the words of an instruction. -/
def encode (i : Instr) : List Word := encodeWord i :: i.params.map (fun p => p.2.word)

/-- The first four words of a list, zeros where it has fewer. -/
def Window.ofWords (ws : List Word) : Window := ⟨ws.getD 0 0, ws.getD 1 0, ws.getD 2 0, ws.getD 3 0⟩

/-- The window whose bits are the `nbits` low bits of `w`, numbered from bit 0 of the first word; all others are zero. -/
def Window.ofBits (nbits w : Nat) : Window :=
  let n := w % 2 ^ nbits
  ⟨BitVec.ofNat 64 n, BitVec.ofNat 64 (n / 2 ^ 64), BitVec.ofNat 64 (n / 2 ^ 128), BitVec.ofNat 64 (n / 2 ^ 192)⟩

/-- The instruction the decoder reads from the bits `w`; none where it refuses. -/
def decodeTableWord (nbits w : Nat) : Option Instr :=
  match decode (Window.ofBits nbits w) with
  | .ok i => some i
  | .error _ => none

end Sys2Proof
end

