-- ==== Sys2Proof/Config.lean ====
section
/-! DEFINITION. The one OPEN parameter of the hardware (R5, D3). There is no free value: 93_implementation_defined.md
leaves no result open. -/

namespace Sys2Proof

/-- What an implementation fixes.
DESIGN CHOICE, safe (log 2): it is carried in State, because a model may take any value and `exec` has no other argument
for it; a statement about every state is then a statement about every `MEM_LIMIT`. -/
structure Config where
  /-- R5, R43, R187: `MEM_LIMIT`; at this address and above a write raises CapacityExceeded and a read is 0. -/
  memLimit : Nat
deriving DecidableEq, Repr

/-- R5: the default `MEM_LIMIT = 2^63`, under which every non-negative word is a writable address. -/
def Config.default : Config := ⟨9223372036854775808⟩

end Sys2Proof
end

