-- ==== Sys2Proof/Machine/State.lean ====
section
/-! DEFINITION. The state of the machine (10_state.md R20 to R31) as plain data, its reset value, and the reasons a step
can stop. -/

namespace Sys2Proof.Machine

/-- R24: STATUS.`state`. -/
inductive RunState where
  /-- 0 LOADED: constructed, `run` not yet invoked. -/
  | loaded
  /-- 1 RUNNING: executing. -/
  | running
  /-- 2 HALTED: terminal. -/
  | halted
  /-- 3 FAILED: terminal. -/
  | failed
deriving DecidableEq, Repr

/-- R180: the errors. -/
inductive Error where
  /-- Code 1, raised by the loader only; it yields no instance. -/
  | programFormatError
  /-- Code 2. -/
  | invalidOpcode
  /-- Code 3. -/
  | invalidOperand
  /-- Code 4. -/
  | addressError
  /-- Code 5. -/
  | inputExhausted
  /-- Code 6. -/
  | arithmeticOverflow
  /-- Code 7. -/
  | capacityExceeded
deriving DecidableEq, Repr

/-- R24: the STATUS register, field by field (the spec gives it no bit layout). No instruction reads it. -/
structure Status where
  state : RunState
  /-- `none` is code 0. -/
  cause : Option Error
  /-- The `ip` of the instruction that raised the error. -/
  faultIp : Nat
  /-- The instruction word there. -/
  faultWord : Word
  /-- 0 .. 3: the parameter the error belongs to, 0 if none. -/
  faultParam : Fin 4
  /-- R181: an exact integer, which may lie outside the word range. -/
  faultValue : Int
deriving DecidableEq, Repr

/-- One materialised memory cell: an address and the word it holds (R46: the unit of addressing is one word; there are no
bytes, so this is not `Host.Cell`; log 1). -/
abbrev Cell := Nat × Word

/-- R25: the extent `E` and the contents. `cells` lists the non-zero cells below `E` by rising address; an unlisted
address reads 0 (R42). -/
structure Memory where
  extent : Nat
  cells : List Cell
deriving DecidableEq, Repr

/-- The whole state of the machine, and the parameter it is run with. -/
structure State where
  /-- The MODEL's own field: the parameter `MEM_LIMIT` (log 2). -/
  cfg : Config
  /-- R20: the instruction pointer. -/
  ip : Nat
  /-- R22: the relative base. -/
  rb : Word
  /-- R25: the memory. -/
  mem : Memory
  /-- R26: the remaining input queue, head first. -/
  input : List Word
  /-- R27: the output sequence, oldest first. -/
  output : List Word
  /-- R24: the STATUS register. -/
  status : Status
deriving DecidableEq, Repr

/-- R29: every STATUS field after construction. -/
def Status.reset : Status := ⟨.loaded, none, 0, 0, 0, 0⟩

/-- R29, column "after construction (LOADED)", before any program has been loaded: extent 0 and nothing listed.
DESIGN CHOICE (log 3): a program comes in by `load` (Machine/Loader.lean) and runs after `start` (Machine/Run.lean). -/
def State.reset : State := ⟨Config.default, 0, 0, ⟨0, []⟩, [], [], Status.reset⟩

/-- R104: why there is no step. Every one is raised by `step` alone and is safe: the machine has no transition there. An
error of an instruction is no fault of the model but a next state with STATUS FAILED (R183, log 5). -/
inductive Fault where
  /-- LOADED: `run` has not been called. Safe. -/
  | notStarted
  /-- HALTED is terminal. Safe. -/
  | alreadyHalted
  /-- FAILED is terminal. Safe. -/
  | alreadyFailed
deriving DecidableEq, Repr

/-- Why something has no meaning. -/
inductive Refusal where
  /-- Raised by `exec` for an instruction without a meaning: no instruction of this model. Safe. -/
  | notModelled (mnemonic : String)
  /-- R166, D16: raised by `start` when the host calls `run` on an instance that is not LOADED. Safe. -/
  | runNotAccepted (state : RunState)
deriving DecidableEq, Repr

/-- The outcome of a step of this machine. -/
abbrev Outcome := Host.Outcome State Fault Refusal

end Sys2Proof.Machine
end

