-- ==== Sys2Proof/Machine/Ops.lean ====
section
/-! DEFINITION. The named operations: memory (20_memory.md), named updates of State, the range check (R186), fetch (R91),
taking an error (R183) and the commit of an instruction (R97). -/

namespace Sys2Proof.Machine

/-! ### Memory cells in canonical form -/

/-- The word listed for an address; 0 where none is listed (R42). -/
def lookupCell (a : Nat) : List Cell → Word
  | [] => 0
  | (b, u) :: rest => if b = a then u else lookupCell a rest

/-- Put one cell in front of a list, unless it holds 0: a cell that reads 0 is not listed. -/
def consCell (a : Nat) (v : Word) (cells : List Cell) : List Cell :=
  if v = 0 then cells else (a, v) :: cells

/-- Set the word of one address in a rising list. -/
def writeCell (a : Nat) (v : Word) : List Cell → List Cell
  | [] => consCell a v []
  | (b, u) :: rest =>
    if b < a then (b, u) :: writeCell a v rest
    else if b = a then consCell a v rest
    else consCell a v ((b, u) :: rest)

/-- The cells of an image whose first word lies at `lo` (R163). -/
def imageCells (lo : Nat) : List Word → List Cell
  | [] => []
  | v :: rest => consCell lo v (imageCells (lo + 1) rest)

/-- Canonical form from `lo` on: addresses rise, lie in `lo .. extent - 1`, and no listed word is 0. -/
def cellsWf (extent : Nat) : Nat → List Cell → Bool
  | _, [] => true
  | lo, (a, v) :: rest => decide (lo ≤ a) && decide (a < extent) && decide (v ≠ 0) && cellsWf extent (a + 1) rest

/-! ### The memory controller -/

/-- R25, R41: the word `C[a]` of a materialised cell; 0 at and beyond the extent. -/
def Memory.read (m : Memory) (a : Nat) : Word := if a < m.extent then lookupCell a m.cells else 0

/-- R43: store a word, growing the extent to `a + 1` where needed; the new cells between read 0. -/
def Memory.write (m : Memory) (a : Nat) (v : Word) : Memory :=
  ⟨max m.extent (a + 1), writeCell a v m.cells⟩

/-- R163: the memory of a program image. -/
def Memory.ofImage (image : List Word) : Memory := ⟨image.length, imageCells 0 image⟩

/-- The canonical form: equal memories are equal data (R45 leaves the representation free). -/
def Memory.wf (m : Memory) : Bool := cellsWf m.extent 0 m.cells

/-- R42: what a non-negative address reads as, in a fetch, a parameter-word read, an operand read and the debug view
alike. It changes nothing. R187, D3: at and beyond `MEM_LIMIT` it is 0 (log 8). -/
def State.read (s : State) (a : Nat) : Word := if a < s.cfg.memLimit then s.mem.read a else 0

/-! ### Named updates of the state -/

/-- `ip <- a`. -/
def State.setIp (a : Nat) (s : State) : State := { s with ip := a }

/-- `rb <- v`. -/
def State.setRb (v : Word) (s : State) : State := { s with rb := v }

/-- `MemWrite(a, v)`, its checks already made (R95). -/
def State.store (a : Nat) (v : Word) (s : State) : State := { s with mem := s.mem.write a v }

/-- R26: `InPop()`, which leaves the tail of the queue. -/
def State.popInput (s : State) : State := { s with input := s.input.tail }

/-- R27: `OutPush(v)`. -/
def State.pushOutput (v : Word) (s : State) : State := { s with output := s.output ++ [v] }

/-- `STATUS.state <- r`. -/
def State.setRunState (r : RunState) (s : State) : State := { s with status := { s.status with state := r } }

/-- Write the whole STATUS register. -/
def State.setStatus (st : Status) (s : State) : State := { s with status := st }

/-! ### Errors -/

/-- R181: an error with the part of its record that the rule raising it names. -/
structure Raise where
  error : Error
  param : Fin 4
  value : Int
deriving DecidableEq, Repr

/-- R183: `raise E(info)`, the one way an error is taken. STATUS becomes FAILED with the record of R181; nothing else
changes. There is no handler and no return from it (R185).
DEDUCED, safe (log 7): the instruction word is the word at `ip`, which no instruction changes before its commit. -/
def raise (e : Raise) (s : State) : State :=
  s.setStatus ⟨.failed, some e.error, s.ip, s.read s.ip, e.param, e.value⟩

/-- R186: `chk(v, info)`. -/
def chk (param : Fin 4) (v : Int) : Except Raise Int :=
  if InRange v then .ok v else .error ⟨.arithmeticOverflow, param, v⟩

/-- R42: `MemRead(a)` of an address that may be negative, for parameter `param`. -/
def memRead (s : State) (param : Fin 4) (a : Int) : Except Raise Word :=
  if a < 0 then .error ⟨.addressError, param, a⟩ else .ok (s.read a.toNat)

/-- R95, R43: the checks on a write-target address, made at resolution. -/
def checkTarget (s : State) (param : Fin 4) (a : Int) : Except Raise Nat :=
  if a < 0 then .error ⟨.addressError, param, a⟩
  else if s.cfg.memLimit ≤ a.toNat then .error ⟨.capacityExceeded, param, a⟩
  else .ok a.toNat

/-- R96: `chk(ip + 1 + k)`, the address of the following instruction. -/
def successor (s : State) (k : Nat) : Except Raise Nat :=
  if (s.ip : Int) + 1 + k ≤ wmax then .ok (s.ip + 1 + k)
  else .error ⟨.arithmeticOverflow, 0, (s.ip : Int) + 1 + k⟩

/-! ### Commit -/

/-- R97: the I/O sequencer update of a commit. -/
inductive IoUpdate where
  | none
  | pop
  | push (v : Word)
deriving DecidableEq, Repr

/-- R97: the last write of a commit. -/
inductive Control where
  /-- `ip <- a`. -/
  | goto (a : Nat)
  /-- The state change to HALTED; `ip` keeps its value (R151). -/
  | halt
deriving DecidableEq, Repr

/-- R97: all architectural writes of one instruction. -/
structure Effect where
  store : Option (Nat × Word) := none
  io : IoUpdate := .none
  base : Option Word := none
  control : Control
deriving DecidableEq, Repr

/-- The memory write of a commit. -/
def applyStore : Option (Nat × Word) → State → State
  | none, s => s
  | some (a, v), s => s.store a v

/-- The I/O sequencer update of a commit. -/
def applyIo : IoUpdate → State → State
  | .none, s => s
  | .pop, s => s.popInput
  | .push v, s => s.pushOutput v

/-- The relative-base write of a commit. -/
def applyBase : Option Word → State → State
  | none, s => s
  | some v, s => s.setRb v

/-- The last write of a commit. -/
def applyControl : Control → State → State
  | .goto a, s => s.setIp a
  | .halt, s => s.setRunState .halted

/-- R97: the writes of an instruction, in the order of the rule. -/
def commit (e : Effect) (s : State) : State :=
  applyControl e.control (applyBase e.base (applyIo e.io (applyStore e.store s)))

/-- How every instruction ends: its effect is committed whole, or its error is taken and nothing is committed (R97, R98,
R183). -/
def retire (r : Except Raise Effect) (s : State) : Outcome :=
  match r with
  | .ok e => .next (commit e s)
  | .error e => .next (raise e s)

/-! ### Fetch and decode errors -/

/-- R91, R94: the words at `ip` and after it. -/
def fetch (s : State) : Window :=
  ⟨s.read s.ip, s.read (s.ip + 1), s.read (s.ip + 2), s.read (s.ip + 3)⟩

/-- R92, R181: the error of a word the decoder refuses; its value is the word. -/
def rejectError (r : Reject) (w : Word) : Raise :=
  match r with
  | .invalidOpcode => ⟨.invalidOpcode, 0, w.toInt⟩

/-! ### Placing words from outside -/

/-- Place a word at an address, where the address is one a word can hold. -/
def placeWord (a : Nat) (v : Word) (m : Memory) : Memory :=
  if (a : Int) ≤ wmax then m.write a v else m

/-- Place the four words of a window at `a`. -/
def placeWindow (a : Nat) (f : Window) (m : Memory) : Memory :=
  placeWord (a + 3) f.p3 (placeWord (a + 2) f.p2 (placeWord (a + 1) f.p1 (placeWord a f.w m)))

end Sys2Proof.Machine
end

