-- ==== Sys2Proof/Machine/Operands.lean ====
section
/-! DEFINITION. Operand resolution, every form of R94 (read parameter) and R95 (write-target parameter), and the shared
shape of the instructions of format F3RRW. Each check stands where R182 puts it. -/

namespace Sys2Proof.Machine

/-- R94: the address of the parameter word, whose overflow is the parameter's. -/
def paramAddress (s : State) (i : Fin 4) : Except Raise Int := chk i ((s.ip : Int) + i.val)

/-- R94, R95: `chk(rb + p)`. -/
def relativeAddress (s : State) (i : Fin 4) (p : Word) : Except Raise Int := chk i (s.rb.toInt + p.toInt)

/-- R94: resolve read parameter `i` to its operand value. -/
def readParam (s : State) (i : Fin 4) (p : Param) : Except Raise Word :=
  match p.mode with
  | .position => do
    let _ ← paramAddress s i
    memRead s i p.word.toInt
  | .immediate => do
    let _ ← paramAddress s i
    .ok p.word
  | .relative => do
    let _ ← paramAddress s i
    let a ← relativeAddress s i p.word
    memRead s i a
  | .unassigned k => .error ⟨.invalidOperand, i, (k.val : Int) + 3⟩

/-- R95: resolve write-target parameter `i` to the address written. -/
def writeParam (s : State) (i : Fin 4) (p : Param) : Except Raise Nat :=
  match p.mode with
  | .position => do
    let _ ← paramAddress s i
    checkTarget s i p.word.toInt
  | .immediate => .error ⟨.invalidOperand, i, 1⟩
  | .relative => do
    let _ ← paramAddress s i
    let a ← relativeAddress s i p.word
    checkTarget s i a
  | .unassigned k => .error ⟨.invalidOperand, i, (k.val : Int) + 3⟩

/-- Format F3RRW (R67): resolve the three parameters in order (R93), compute the word `f x y`, check the successor, and
store the word. -/
def threeParams (f : Word → Word → Except Raise Word) (a b dst : Param) (s : State) : Except Raise Effect := do
  let x ← readParam s 1 a
  let y ← readParam s 2 b
  let d ← writeParam s 3 dst
  let r ← f x y
  let next ← successor s 3
  .ok { store := some (d, r), control := .goto next }

end Sys2Proof.Machine
end

