-- ==== Sys2Proof/Machine/Flags.lean ====
section
/-! DEFINITION. The machine has no flags and no condition codes (R23): a comparison's result is a word that is stored, and
a jump tests an operand. This file holds these two conditions, and the checked results of the ALU. -/

namespace Sys2Proof.Machine

/-- R140, R141: 1 for true, 0 for false. -/
def truthWord (b : Bool) : Word := if b then 1 else 0

/-- R140: the signed comparison `x < y`. -/
def lessThan (x y : Word) : Bool := decide (x.toInt < y.toInt)

/-- R141: equality of two words. -/
def equalWords (x y : Word) : Bool := decide (x.toInt = y.toInt)

/-- R130, R131: whether a condition operand is not 0. -/
def nonZero (x : Word) : Bool := decide (x.toInt ≠ 0)

/-- R109, R186: an exact result that must be a word. -/
def checkedWord (v : Int) : Except Raise Word := do
  let r ← chk 0 v
  .ok (Word.ofInt r)

end Sys2Proof.Machine
end

