-- ==== Sys2Proof/Machine/Arithmetic.lean ====
section
/-! DEFINITION. The arithmetic instructions (41_arithmetic.md). -/

namespace Sys2Proof.Machine

/-- R110: `add`. -/
def execAdd (a b dst : Param) (s : State) : Outcome :=
  retire (threeParams (fun x y => checkedWord (x.toInt + y.toInt)) a b dst s) s

/-- R111: `mul`. -/
def execMul (a b dst : Param) (s : State) : Outcome :=
  retire (threeParams (fun x y => checkedWord (x.toInt * y.toInt)) a b dst s) s

end Sys2Proof.Machine
end

