-- ==== Sys2Proof/Machine/BaseHalt.lean ====
section
/-! DEFINITION. Base adjust and halt (45_base_and_halt.md). -/

namespace Sys2Proof.Machine

/-- R150: the effect of `arb`; its operand is read with the old base. -/
def baseEffect (a : Param) (s : State) : Except Raise Effect := do
  let x ← readParam s 1 a
  let r ← checkedWord (s.rb.toInt + x.toInt)
  let next ← successor s 1
  .ok { base := some r, control := .goto next }

/-- R150: `arb`. -/
def execArb (a : Param) (s : State) : Outcome := retire (baseEffect a s) s

/-- R151: `hlt`. -/
def execHlt (s : State) : Outcome := retire (.ok { control := .halt }) s

end Sys2Proof.Machine
end

