-- ==== Sys2Proof/Machine/Compare.lean ====
section
/-! DEFINITION. The comparison instructions (44_compare.md). -/

namespace Sys2Proof.Machine

/-- R140: `lt`. -/
def execLt (a b dst : Param) (s : State) : Outcome :=
  retire (threeParams (fun x y => .ok (truthWord (lessThan x y))) a b dst s) s

/-- R141: `eq`. -/
def execEq (a b dst : Param) (s : State) : Outcome :=
  retire (threeParams (fun x y => .ok (truthWord (equalWords x y))) a b dst s) s

end Sys2Proof.Machine
end

