-- ==== Sys2Proof/Machine/InputOutput.lean ====
section
/-! DEFINITION. The I/O instructions (42_io.md). -/

namespace Sys2Proof.Machine

/-- R120: the effect of `in`; the target is checked before the queue. -/
def inputEffect (dst : Param) (s : State) : Except Raise Effect := do
  let d ← writeParam s 1 dst
  match s.input with
  | [] => .error ⟨.inputExhausted, 1, 0⟩
  | v :: _ => do
    let next ← successor s 1
    .ok { store := some (d, v), io := .pop, control := .goto next }

/-- R120: `in`. -/
def execIn (dst : Param) (s : State) : Outcome := retire (inputEffect dst s) s

/-- R121: the effect of `out`. -/
def outputEffect (a : Param) (s : State) : Except Raise Effect := do
  let x ← readParam s 1 a
  let next ← successor s 1
  .ok { io := .push x, control := .goto next }

/-- R121: `out`. -/
def execOut (a : Param) (s : State) : Outcome := retire (outputEffect a s) s

end Sys2Proof.Machine
end

