-- ==== Sys2Proof/Machine/Jumps.lean ====
section
/-! DEFINITION. Control transfer (43_jumps.md). -/

namespace Sys2Proof.Machine

/-- R130, R131: the end of a jump whose parameters are resolved. A taken jump to a negative target fails at the jump
(D9). -/
def jumpControl (taken : Bool) (target : Word) (s : State) : Except Raise Effect :=
  match taken with
  | true =>
    if target.toInt < 0 then .error ⟨.addressError, 2, target.toInt⟩
    else .ok { control := .goto target.toInt.toNat }
  | false => do
    let next ← successor s 2
    .ok { control := .goto next }

/-- Format F2RR (R67): both parameters are resolved whether or not the jump is taken (D7). -/
def jumpEffect (cond : Word → Bool) (a target : Param) (s : State) : Except Raise Effect := do
  let x ← readParam s 1 a
  let t ← readParam s 2 target
  jumpControl (cond x) t s

/-- R130: `jt`. -/
def execJt (a target : Param) (s : State) : Outcome := retire (jumpEffect (fun x => nonZero x) a target s) s

/-- R131: `jf`. -/
def execJf (a target : Param) (s : State) : Outcome := retire (jumpEffect (fun x => !nonZero x) a target s) s

end Sys2Proof.Machine
end

