-- ==== Sys2Proof/Machine/Step.lean ====
section
/-! DEFINITION. One step of the execution cycle (40_execution_cycle.md), and the placing of one instruction. -/

namespace Sys2Proof.Machine

/-- R90 to R97, R104: one instruction while RUNNING, and no step in any other state. -/
def step (s : State) : Host.Outcome State Fault Refusal :=
  match s.status.state with
  | .loaded => .fault .notStarted
  | .halted => .fault .alreadyHalted
  | .failed => .fault .alreadyFailed
  | .running =>
    match decode (fetch s) with
    | .error r => .next (raise (rejectError r (fetch s).w) s)
    | .ok i => exec i s

/-- The state whose next step fetches and runs the instruction whose bits are `w`: its words stored at `ip`, and STATUS
RUNNING, as after a load and the start of `run` (log 3). -/
def State.withFetchWord (s : State) (nbits w : Nat) : State :=
  { s with
    mem := placeWindow s.ip (Window.ofBits nbits w) s.mem
    status := { s.status with state := .running } }

end Sys2Proof.Machine
end

