-- ==== Sys2Proof/Machine/Assembler.lean ====
section
/-! DEFINITION. The spec's assembler notation (R76) and its pseudo-instructions (R77), D18: notation over the ten
instructions, with no meaning of its own. -/

namespace Sys2Proof.Machine

/-- R77: `mov s, d` is `add s, #0, d`. -/
def pseudoMov (src dst : Param) : Instr := .add src ⟨.immediate, 0⟩ dst

/-- R77: `jmp t` is `jt #1, t`. -/
def pseudoJmp (target : Param) : Instr := .jt ⟨.immediate, 1⟩ target

/-- R77: `neg s, d` is `mul s, #-1, d`. -/
def pseudoNeg (src dst : Param) : Instr := .mul src ⟨.immediate, Word.ofInt (-1)⟩ dst

/-- R77: `nop` is `arb #0`. -/
def pseudoNop : Instr := .arb ⟨.immediate, 0⟩

/-- R76: a number, or a label, which stands for its address. -/
inductive AsmValue where
  | num (n : Int)
  | label (name : String)
deriving DecidableEq, Repr

/-- R76: an operand. -/
inductive AsmOperand where
  /-- `[n]`. -/
  | cell (v : AsmValue)
  /-- `#n`. -/
  | literal (v : AsmValue)
  /-- `[rb+n]` or `[rb-n]`. -/
  | based (n : Int)
deriving DecidableEq, Repr

/-- R76, R77: a mnemonic with its operands. -/
inductive AsmInstr where
  | add (a b dst : AsmOperand)
  | mul (a b dst : AsmOperand)
  | inp (dst : AsmOperand)
  | out (a : AsmOperand)
  | jt (a target : AsmOperand)
  | jf (a target : AsmOperand)
  | lt (a b dst : AsmOperand)
  | eq (a b dst : AsmOperand)
  | arb (a : AsmOperand)
  | hlt
  | mov (src dst : AsmOperand)
  | jmp (target : AsmOperand)
  | neg (src dst : AsmOperand)
  | nop
deriving DecidableEq, Repr

/-- R76: a line of a program. -/
inductive AsmLine where
  /-- `label:`, the name of the address of the next word. -/
  | label (name : String)
  /-- `.word n, n, ...`. -/
  | words (vs : List AsmValue)
  | instr (i : AsmInstr)
deriving DecidableEq, Repr

/-- The address of a label, where it is defined. -/
def labelAddress (name : String) : List (String × Nat) → Option Nat
  | [] => none
  | (l, a) :: rest => if l = name then some a else labelAddress name rest

/-- The word of a value: a label's address, or a number that is a word. -/
def asmWord (labels : List (String × Nat)) : AsmValue → Option Word
  | .num n => if InRange n then some (Word.ofInt n) else none
  | .label name => (labelAddress name labels).map (fun a => Word.ofInt a)

/-- R76: the mode and parameter word of an operand. -/
def asmParam (labels : List (String × Nat)) : AsmOperand → Option Param
  | .cell v => (asmWord labels v).map (fun w => ⟨.position, w⟩)
  | .literal v => (asmWord labels v).map (fun w => ⟨.immediate, w⟩)
  | .based n => (asmWord labels (.num n)).map (fun w => ⟨.relative, w⟩)

/-- R77: the instruction of a line, pseudo-instructions expanded. -/
def asmInstr (labels : List (String × Nat)) : AsmInstr → Option Instr
  | .add a b dst => do return .add (← asmParam labels a) (← asmParam labels b) (← asmParam labels dst)
  | .mul a b dst => do return .mul (← asmParam labels a) (← asmParam labels b) (← asmParam labels dst)
  | .inp dst => do return .inp (← asmParam labels dst)
  | .out a => do return .out (← asmParam labels a)
  | .jt a target => do return .jt (← asmParam labels a) (← asmParam labels target)
  | .jf a target => do return .jf (← asmParam labels a) (← asmParam labels target)
  | .lt a b dst => do return .lt (← asmParam labels a) (← asmParam labels b) (← asmParam labels dst)
  | .eq a b dst => do return .eq (← asmParam labels a) (← asmParam labels b) (← asmParam labels dst)
  | .arb a => do return .arb (← asmParam labels a)
  | .hlt => some .hlt
  | .mov src dst => do return pseudoMov (← asmParam labels src) (← asmParam labels dst)
  | .jmp target => do return pseudoJmp (← asmParam labels target)
  | .neg src dst => do return pseudoNeg (← asmParam labels src) (← asmParam labels dst)
  | .nop => some pseudoNop

/-- The words a mnemonic's instruction occupies (R64). -/
def asmLength : AsmInstr → Nat
  | .add _ _ _ => 4
  | .mul _ _ _ => 4
  | .inp _ => 2
  | .out _ => 2
  | .jt _ _ => 3
  | .jf _ _ => 3
  | .lt _ _ _ => 4
  | .eq _ _ _ => 4
  | .arb _ => 2
  | .hlt => 1
  | .mov _ _ => 4
  | .jmp _ => 3
  | .neg _ _ => 4
  | .nop => 2

/-- The labels of a program whose first word lies at `at_`. -/
def asmLabels (at_ : Nat) : List AsmLine → List (String × Nat)
  | [] => []
  | .label name :: rest => (name, at_) :: asmLabels at_ rest
  | .words vs :: rest => asmLabels (at_ + vs.length) rest
  | .instr i :: rest => asmLabels (at_ + asmLength i) rest

/-- The words of one line. -/
def asmLineWords (labels : List (String × Nat)) : AsmLine → Option (List Word)
  | .label _ => some []
  | .words vs => vs.mapM (asmWord labels)
  | .instr i => (asmInstr labels i).map encode

/-- The words of lines, given the labels. -/
def asmWords (labels : List (String × Nat)) : List AsmLine → Option (List Word)
  | [] => some []
  | line :: rest => do return (← asmLineWords labels line) ++ (← asmWords labels rest)

/-- R76: the program image of an assembler program whose first word lies at address 0. -/
def assemble (lines : List AsmLine) : Option (List Word) := asmWords (asmLabels 0 lines) lines

/-- R76: how an operand is written.
DESIGN CHOICE, safe (log 17): R76 and D18 give no form for an operand whose mode digit is 3 to 9; it is written as `mode`,
the digit and the word. This is display only. -/
def paramText (p : Param) : String :=
  match p.mode with
  | .position => "[" ++ toString p.word.toInt ++ "]"
  | .immediate => "#" ++ toString p.word.toInt
  | .relative =>
    if p.word.toInt < 0 then "[rb-" ++ toString (-p.word.toInt) ++ "]" else "[rb+" ++ toString p.word.toInt ++ "]"
  | .unassigned k => "mode " ++ toString (k.val + 3) ++ " " ++ toString p.word.toInt

/-- R70: the mnemonic of an instruction. -/
def mnemonicText : Instr → String
  | .add _ _ _ => "add"
  | .mul _ _ _ => "mul"
  | .inp _ => "in"
  | .out _ => "out"
  | .jt _ _ => "jt"
  | .jf _ _ => "jf"
  | .lt _ _ _ => "lt"
  | .eq _ _ _ => "eq"
  | .arb _ => "arb"
  | .hlt => "hlt"

/-- R76: an instruction as one line of text, `mnemonic op1, op2, op3`. -/
def instrText (i : Instr) : String :=
  match i.params with
  | [] => mnemonicText i
  | p :: ps => mnemonicText i ++ " " ++ ps.foldl (fun acc q => acc ++ ", " ++ paramText q.2) (paramText p.2)

end Sys2Proof.Machine
end

