-- ==== Sys2Proof/Machine/Loader.lean ====
section
/-! DEFINITION. The Program Loader, the image-load port of the host interface (50_loader_and_host.md R160 to R164). -/

namespace Sys2Proof.Machine

/-- R161: `WS`, one of space, tab, CR and LF. -/
def isSpace (c : Char) : Bool := c == ' ' || c == '\t' || c == '\r' || c == '\n'

/-- R160, R161: surrounding whitespace is trimmed first. -/
def trimText (text : List Char) : List Char :=
  ((text.dropWhile isSpace).reverse.dropWhile isSpace).reverse

/-- R161: the texts between single commas; a text without a comma is one of them. -/
def splitCommas : List Char → List (List Char)
  | [] => [[]]
  | c :: rest =>
    match splitCommas rest with
    | [] => [[c]]
    | t :: ts => if c = ',' then [] :: t :: ts else (c :: t) :: ts

/-- R161: the value of a decimal digit. -/
def digitValue (c : Char) : Option Nat :=
  if 48 ≤ c.toNat ∧ c.toNat ≤ 57 then some (c.toNat - 48) else none

/-- R161, R162: the decimal value of digits, after those that gave `acc`. -/
def decimalValue (acc : Nat) : List Char → Option Nat
  | [] => some acc
  | c :: rest =>
    match digitValue c with
    | none => none
    | some d => decimalValue (10 * acc + d) rest

/-- R161: one or more digits. -/
def unsignedValue : List Char → Option Nat
  | [] => none
  | c :: rest => decimalValue 0 (c :: rest)

/-- R161, R162: an optional minus sign and one or more digits; `-0` is 0. -/
def tokenValue : List Char → Option Int
  | [] => none
  | c :: rest =>
    if c = '-' then (unsignedValue rest).map (fun n => -(n : Int))
    else (unsignedValue (c :: rest)).map (fun n => (n : Int))

/-- R162: a token whose value is a word. -/
def tokenWord (token : List Char) : Option Word :=
  match tokenValue token with
  | none => none
  | some v => if InRange v then some (Word.ofInt v) else none

/-- Every token's word, or none if a token has none. -/
def tokenWords : List (List Char) → Option (List Word)
  | [] => some []
  | t :: ts =>
    match tokenWord t, tokenWords ts with
    | some v, some vs => some (v :: vs)
    | _, _ => none

/-- R160 to R163: the program image of a text, or none where the text is outside the grammar. -/
def parseImage (text : List Char) : Option (List Word) := tokenWords (splitCommas (trimText text))

/-- R29, column "after construction": the instance a program image gives. -/
def loadedState (cfg : Config) (image : List Word) : State :=
  ⟨cfg, 0, 0, Memory.ofImage image, [], [], Status.reset⟩

/-- R164: a new instance in LOADED, or ProgramFormatError and no instance. The image is checked against nothing else,
`MEM_LIMIT` included (R163); of a longer image the cells from `MEM_LIMIT` on read 0 (R187, log 8). -/
def load (cfg : Config) (text : List Char) : Except Error State :=
  match parseImage text with
  | none => .error .programFormatError
  | some image => .ok (loadedState cfg image)

end Sys2Proof.Machine
end

