-- ==== Sys2Proof/Machine/Run.lean ====
section
/-! DEFINITION. The `run` entry point, the run loop and what the host sees of a run (R101 to R104, R165 to R169), and the
numbers of STATUS (R24, R180). -/

namespace Sys2Proof.Machine

/-- R101, R165: the `run` entry point, accepted in LOADED only. A `run` in any other state is refused (R166, D16,
log 10). -/
def start (inputs : List Word) (s : State) : Host.Outcome State Fault Refusal :=
  match s.status.state with
  | .loaded =>
    .next { s with input := inputs, output := [], ip := 0, rb := 0, status := { s.status with state := .running } }
  | .running => .refused (.runNotAccepted .running)
  | .halted => .refused (.runNotAccepted .halted)
  | .failed => .refused (.runNotAccepted .failed)

/-- R101: the run loop, for at most `fuel` steps (R103). -/
def runFor : Nat → State → State
  | 0, s => s
  | fuel + 1, s =>
    match step s with
    | .next t => runFor fuel t
    | .fault _ => s
    | .refused _ => s

/-- R168: what a run shows the host. -/
inductive RunResult where
  /-- HALTED: the output sequence. -/
  | returned (outputs : List Word)
  /-- FAILED: the error with its record; no output sequence (R122, D15). -/
  | failed (status : Status)
  /-- R103: no end within the fuel; neither HALTED nor an error. -/
  | notEnded
deriving DecidableEq, Repr

/-- R101, R168: the result that a state shows. -/
def runResult (s : State) : RunResult :=
  match s.status.state with
  | .halted => .returned s.output
  | .failed => .failed s.status
  | .running => .notEnded
  | .loaded => .notEnded

/-- R101, R165: `run(inputs)` of an instance, observed for at most `fuel` steps. -/
def run (fuel : Nat) (inputs : List Word) (s : State) : Host.Outcome RunResult Fault Refusal :=
  match start inputs s with
  | .next t => .next (runResult (runFor fuel t))
  | .fault r => .fault r
  | .refused r => .refused r

/-- R169: the read-only view of a state after its run has ended, with the fields that R169 and D14 list.
DESIGN CHOICE, safe (log 18): it has no output sequence. R169 does not list one, and D15 says only that the outputs made
before an error stay in the state; here they stay in `State.output`. -/
structure DebugView where
  image : List Word
  ip : Nat
  rb : Word
  status : Status
deriving DecidableEq, Repr

/-- R169: the memory image `[C[0], ..., C[E-1]]`. -/
def memoryImage (m : Memory) : List Word := (List.range m.extent).map m.read

/-- R169: the debug view, there once the run has ended and not before. -/
def debugView (s : State) : Option DebugView :=
  match s.status.state with
  | .halted => some ⟨memoryImage s.mem, s.ip, s.rb, s.status⟩
  | .failed => some ⟨memoryImage s.mem, s.ip, s.rb, s.status⟩
  | .running => none
  | .loaded => none

/-- R169: `MemRead(a)` of the debug view, for an address `a ≥ 0`, once the run has ended. -/
def debugRead (s : State) (a : Nat) : Option Word :=
  match s.status.state with
  | .halted => some (s.read a)
  | .failed => some (s.read a)
  | .running => none
  | .loaded => none

/-- R24: the number of a run state. -/
def stateCode : RunState → Nat
  | .loaded => 0
  | .running => 1
  | .halted => 2
  | .failed => 3

/-- R180: the code of an error. -/
def errorCode : Error → Nat
  | .programFormatError => 1
  | .invalidOpcode => 2
  | .invalidOperand => 3
  | .addressError => 4
  | .inputExhausted => 5
  | .arithmeticOverflow => 6
  | .capacityExceeded => 7

/-- R24: the number in STATUS.`cause`; 0 means no error. -/
def causeCode : Option Error → Nat
  | none => 0
  | some e => errorCode e

end Sys2Proof.Machine
end

