-- ==== Sys2Proof/Safety.lean ====
section
/-! DEFINITION. The terms that claims use: what it takes for a parameter to resolve and which error it meets otherwise,
written from R94, R95 and R182 beside the functions of Machine/Operands.lean and not through them; the error state of R183;
the invariant of the machine; the grammar of R161. -/

namespace Sys2Proof.Machine

/-! ### Parameters -/

/-- The exact address of a relative-mode operand: `rb + p` (R94, R95). -/
def relativeSum (s : State) (p : Param) : Int := s.rb.toInt + p.word.toInt

/-- R94: read parameter `i` resolves to the operand value `v`. -/
def ReadsAs (s : State) (i : Fin 4) (p : Param) (v : Word) : Prop :=
  (s.ip : Int) + i.val ≤ wmax ∧
  match p.mode with
  | .position => 0 ≤ p.word.toInt ∧ v = s.read p.word.toInt.toNat
  | .immediate => v = p.word
  | .relative =>
    InRange (relativeSum s p) ∧ 0 ≤ relativeSum s p ∧ v = s.read (relativeSum s p).toNat
  | .unassigned _ => False

/-- R95: write-target parameter `i` resolves to the address `d`. -/
def TargetIs (s : State) (i : Fin 4) (p : Param) (d : Nat) : Prop :=
  (s.ip : Int) + i.val ≤ wmax ∧ d < s.cfg.memLimit ∧
  match p.mode with
  | .position => p.word.toInt = d
  | .immediate => False
  | .relative => InRange (relativeSum s p) ∧ relativeSum s p = d
  | .unassigned _ => False

/-- R182, item 2: the error of read parameter `i`. -/
def ReadFails (s : State) (i : Fin 4) (p : Param) (e : Raise) : Prop :=
  match p.mode with
  | .position =>
    (wmax < (s.ip : Int) + i.val ∧ e = ⟨.arithmeticOverflow, i, (s.ip : Int) + i.val⟩) ∨
    ((s.ip : Int) + i.val ≤ wmax ∧ p.word.toInt < 0 ∧ e = ⟨.addressError, i, p.word.toInt⟩)
  | .immediate => wmax < (s.ip : Int) + i.val ∧ e = ⟨.arithmeticOverflow, i, (s.ip : Int) + i.val⟩
  | .relative =>
    (wmax < (s.ip : Int) + i.val ∧ e = ⟨.arithmeticOverflow, i, (s.ip : Int) + i.val⟩) ∨
    ((s.ip : Int) + i.val ≤ wmax ∧ ¬ InRange (relativeSum s p) ∧ e = ⟨.arithmeticOverflow, i, relativeSum s p⟩) ∨
    ((s.ip : Int) + i.val ≤ wmax ∧ InRange (relativeSum s p) ∧ relativeSum s p < 0 ∧
      e = ⟨.addressError, i, relativeSum s p⟩)
  | .unassigned k => e = ⟨.invalidOperand, i, (k.val : Int) + 3⟩

/-- R182, item 2: the error of write-target parameter `i`. -/
def TargetFails (s : State) (i : Fin 4) (p : Param) (e : Raise) : Prop :=
  match p.mode with
  | .position =>
    (wmax < (s.ip : Int) + i.val ∧ e = ⟨.arithmeticOverflow, i, (s.ip : Int) + i.val⟩) ∨
    ((s.ip : Int) + i.val ≤ wmax ∧ p.word.toInt < 0 ∧ e = ⟨.addressError, i, p.word.toInt⟩) ∨
    ((s.ip : Int) + i.val ≤ wmax ∧ 0 ≤ p.word.toInt ∧ (s.cfg.memLimit : Int) ≤ p.word.toInt ∧
      e = ⟨.capacityExceeded, i, p.word.toInt⟩)
  | .immediate => e = ⟨.invalidOperand, i, 1⟩
  | .relative =>
    (wmax < (s.ip : Int) + i.val ∧ e = ⟨.arithmeticOverflow, i, (s.ip : Int) + i.val⟩) ∨
    ((s.ip : Int) + i.val ≤ wmax ∧ ¬ InRange (relativeSum s p) ∧ e = ⟨.arithmeticOverflow, i, relativeSum s p⟩) ∨
    ((s.ip : Int) + i.val ≤ wmax ∧ InRange (relativeSum s p) ∧ relativeSum s p < 0 ∧
      e = ⟨.addressError, i, relativeSum s p⟩) ∨
    ((s.ip : Int) + i.val ≤ wmax ∧ InRange (relativeSum s p) ∧ 0 ≤ relativeSum s p ∧
      (s.cfg.memLimit : Int) ≤ relativeSum s p ∧ e = ⟨.capacityExceeded, i, relativeSum s p⟩)
  | .unassigned k => e = ⟨.invalidOperand, i, (k.val : Int) + 3⟩

/-- Parameter `i`, of either use, resolves. -/
def ParamResolves (s : State) (i : Fin 4) (q : Access × Param) : Prop :=
  match q.1 with
  | .read => ∃ v, ReadsAs s i q.2 v
  | .write => ∃ d, TargetIs s i q.2 d

/-- Parameter `i`, of either use, meets the error `e`. -/
def ParamFails (s : State) (i : Fin 4) (q : Access × Param) (e : Raise) : Prop :=
  match q.1 with
  | .read => ReadFails s i q.2 e
  | .write => TargetFails s i q.2 e

/-- R93: among the parameters from number `n` on, `e` is the error of the first that does not resolve. -/
def FirstParamError (s : State) : Nat → List (Access × Param) → Raise → Prop
  | _, [], _ => False
  | n, q :: qs, e =>
    ParamFails s (Fin.ofNat 4 n) q e ∨ (ParamResolves s (Fin.ofNat 4 n) q ∧ FirstParamError s (n + 1) qs e)

/-! ### Results -/

/-- R183, R181: `s` with the error `e` taken: STATUS alone differs. -/
def failedState (s : State) (e : Raise) : State :=
  { s with
    status :=
      { state := .failed, cause := some e.error, faultIp := s.ip, faultWord := s.read s.ip,
        faultParam := e.param, faultValue := e.value } }

/-- R43: in `t`, cell `d` holds `v`, every other cell (and address beyond the extent) what it holds in `s`, and the extent
has grown to cover `d`. Where `d` is below `MEM_LIMIT`, as a write target is, `d` then reads as `v`. -/
def MemorySet (s t : State) (d : Nat) (v : Int) : Prop :=
  (t.mem.read d).toInt = v ∧ (∀ a, a ≠ d → t.mem.read a = s.mem.read a) ∧ t.mem.extent = max s.mem.extent (d + 1)

/-- The registers and sequences a storing instruction other than `in` keeps. -/
def KeepsAllButMemoryAndIp (s t : State) : Prop :=
  t.cfg = s.cfg ∧ t.rb = s.rb ∧ t.input = s.input ∧ t.output = s.output ∧ t.status = s.status

/-- The parameter an instruction stores through, with its number (R69). -/
def storeParam : Instr → Option (Fin 4 × Param)
  | .add _ _ dst => some (3, dst)
  | .mul _ _ dst => some (3, dst)
  | .inp dst => some (1, dst)
  | .out _ => none
  | .jt _ _ => none
  | .jf _ _ => none
  | .lt _ _ dst => some (3, dst)
  | .eq _ _ dst => some (3, dst)
  | .arb _ => none
  | .hlt => none

/-- The exact value that an instruction stores where its parameters resolve (R110, R111, R120, R140, R141). -/
def StoresValue (s : State) (v : Int) : Instr → Prop
  | .add a b _ => ∃ x y, ReadsAs s 1 a x ∧ ReadsAs s 2 b y ∧ v = x.toInt + y.toInt
  | .mul a b _ => ∃ x y, ReadsAs s 1 a x ∧ ReadsAs s 2 b y ∧ v = x.toInt * y.toInt
  | .inp _ => ∃ x q, s.input = x :: q ∧ v = x.toInt
  | .out _ => False
  | .jt _ _ => False
  | .jf _ _ => False
  | .lt a b _ => ∃ x y, ReadsAs s 1 a x ∧ ReadsAs s 2 b y ∧ v = if x.toInt < y.toInt then 1 else 0
  | .eq a b _ => ∃ x y, ReadsAs s 1 a x ∧ ReadsAs s 2 b y ∧ v = if x.toInt = y.toInt then 1 else 0
  | .arb _ => False
  | .hlt => False

/-- An address that the next instruction of `s` names as its write target. -/
def NextStoresTo (s : State) (d : Nat) : Prop :=
  ∃ i k p, decode (fetch s) = .ok i ∧ storeParam i = some (k, p) ∧ TargetIs s k p d

/-! ### The invariant -/

/-- What every reachable state satisfies. -/
structure State.Inv (s : State) : Prop where
  /-- The memory is in canonical form. -/
  memory : s.mem.wf = true
  /-- R5, R40: every materialised address is a word. -/
  extent : (s.mem.extent : Int) ≤ wmax + 1
  /-- R20: the legal values of `ip`. -/
  ip : (s.ip : Int) ≤ wmax
  /-- R24: `cause` is 0 unless `state` is FAILED, and then it is not. -/
  cause : s.status.cause = none ↔ s.status.state ≠ .failed
  /-- R180: code 1 is the constructor's alone. -/
  runtime : s.status.cause ≠ some .programFormatError
  /-- R29: the record is 0 until an error. -/
  clear : s.status.state ≠ .failed →
    s.status.faultIp = 0 ∧ s.status.faultWord = 0 ∧ s.status.faultParam = 0 ∧ s.status.faultValue = 0
  /-- R183: after an error `ip` still holds the address of the failing instruction. -/
  failed : s.status.state = .failed → s.status.faultIp = s.ip ∧ s.status.faultWord = s.read s.ip
  /-- R151: after a halt `ip` holds the address of the `hlt`. -/
  halted : s.status.state = .halted → decode (fetch s) = .ok .hlt
  /-- R29: before `run`, the registers and sequences are as construction leaves them. -/
  loaded : s.status.state = .loaded → s.ip = 0 ∧ s.rb = 0 ∧ s.input = [] ∧ s.output = []

/-- Two states that no program can tell apart, though their extents may differ: all else is equal and every address reads
alike (R31). -/
def SameButExtent (s t : State) : Prop :=
  t.cfg = s.cfg ∧ t.ip = s.ip ∧ t.rb = s.rb ∧ t.input = s.input ∧ t.output = s.output ∧ t.status = s.status ∧
  ∀ a, t.read a = s.read a

/-! ### The grammar of a program text -/

/-- R161: a token, `"-"? digit+`. -/
structure Token where
  minus : Bool
  digits : List (Fin 10)
deriving DecidableEq, Repr

/-- R161: the character of a digit. -/
def digitChar (d : Fin 10) : Char := Char.ofNat (48 + d.val)

/-- R161: the characters of a token. -/
def Token.text (t : Token) : List Char := (if t.minus then ['-'] else []) ++ t.digits.map digitChar

/-- R162: the decimal value of a token. -/
def Token.value (t : Token) : Int :=
  let n : Nat := t.digits.foldl (fun acc d => 10 * acc + d.val) 0
  if t.minus then -(n : Int) else n

/-- R161, R162: one or more digits, and a value that is a word. -/
def Token.legal (t : Token) : Prop := t.digits ≠ [] ∧ InRange t.value

/-- R161: tokens separated by single commas. -/
def tokensText : List Token → List Char
  | [] => []
  | [t] => t.text
  | t :: u :: rest => t.text ++ ',' :: tokensText (u :: rest)

/-- R161, R162: the text is a program text with these tokens. -/
def IsProgramText (text : List Char) (tokens : List Token) : Prop :=
  tokens ≠ [] ∧ (∀ t ∈ tokens, t.legal) ∧
  ∃ pre post, (∀ c ∈ pre, c ∈ [' ', '\t', '\r', '\n']) ∧ (∀ c ∈ post, c ∈ [' ', '\t', '\r', '\n']) ∧
    text = pre ++ tokensText tokens ++ post

end Sys2Proof.Machine
end

