-- ==== Sys2Proof/Certificates/Slice0/Obligations.lean ====
section
/-! DEFINITION. The statements for the provers. -/

/-! ### Shapes shared by the statements -/

namespace Sys2Proof.Machine

/-- The errors of the parameters are taken in order (R93), with nothing else changed (R183). -/
def TakesParamErrors (i : Instr) (s : State) : Prop :=
  ∀ e, FirstParamError s 1 i.params e → exec i s = .next (failedState s e)

/-- The encoding line of an instruction of format F3RRW: its words, its legal mode digits, and that its words decode to
it whatever the ignored digits `h` are. -/
def EncodedF3RRW (mk : Param → Param → Param → Instr) (op : Nat) : Prop :=
  ∀ a b dst,
    encode (mk a b dst) =
      [Word.ofInt (op + 100 * a.mode.digit + 1000 * b.mode.digit + 10000 * dst.mode.digit), a.word, b.word, dst.word] ∧
    ((mk a b dst).wf = true ↔ a.mode.digit ∈ [0, 1, 2] ∧ b.mode.digit ∈ [0, 1, 2] ∧ dst.mode.digit ∈ [0, 2]) ∧
    ∀ (w : Word) (h : Nat),
      w.toInt = op + 100 * a.mode.digit + 1000 * b.mode.digit + 10000 * dst.mode.digit + 100000 * h →
      decode ⟨w, a.word, b.word, dst.word⟩ = .ok (mk a b dst)

/-- The encoding line of an instruction of format F2RR. -/
def EncodedF2RR (mk : Param → Param → Instr) (op : Nat) : Prop :=
  ∀ a target,
    encode (mk a target) =
      [Word.ofInt (op + 100 * a.mode.digit + 1000 * target.mode.digit), a.word, target.word] ∧
    ((mk a target).wf = true ↔ a.mode.digit ∈ [0, 1, 2] ∧ target.mode.digit ∈ [0, 1, 2]) ∧
    ∀ (w p3 : Word) (h : Nat),
      w.toInt = op + 100 * a.mode.digit + 1000 * target.mode.digit + 10000 * h →
      decode ⟨w, a.word, target.word, p3⟩ = .ok (mk a target)

/-- The encoding line of an instruction of format F1R or F1W, with its legal mode digits. -/
def EncodedF1 (mk : Param → Instr) (op : Nat) (modes : List Nat) : Prop :=
  ∀ a,
    encode (mk a) = [Word.ofInt (op + 100 * a.mode.digit), a.word] ∧
    ((mk a).wf = true ↔ a.mode.digit ∈ modes) ∧
    ∀ (w p2 p3 : Word) (h : Nat),
      w.toInt = op + 100 * a.mode.digit + 1000 * h → decode ⟨w, a.word, p2, p3⟩ = .ok (mk a)

/-- The execute part of an F3RRW instruction whose exact result `f a b` is a word: the successor's overflow, or the
store. -/
def StoresResult (mk : Param → Param → Param → Instr) (f : Int → Int → Int) : Prop :=
  ∀ s a b dst x y d, s.mem.wf = true → ReadsAs s 1 a x → ReadsAs s 2 b y → TargetIs s 3 dst d →
    InRange (f x.toInt y.toInt) →
    (wmax < (s.ip : Int) + 4 →
      exec (mk a b dst) s = .next (failedState s ⟨.arithmeticOverflow, 0, (s.ip : Int) + 4⟩)) ∧
    ((s.ip : Int) + 4 ≤ wmax →
      ∃ t, exec (mk a b dst) s = .next t ∧ MemorySet s t d (f x.toInt y.toInt) ∧ t.ip = s.ip + 4 ∧
        KeepsAllButMemoryAndIp s t)

/-- The execute part of an F3RRW instruction whose exact result `f a b` is no word. -/
def ResultOverflows (mk : Param → Param → Param → Instr) (f : Int → Int → Int) : Prop :=
  ∀ s a b dst x y d, ReadsAs s 1 a x → ReadsAs s 2 b y → TargetIs s 3 dst d → ¬ InRange (f x.toInt y.toInt) →
    exec (mk a b dst) s = .next (failedState s ⟨.arithmeticOverflow, 0, f x.toInt y.toInt⟩)

/-- The execute part of a jump that is taken exactly where `taken` holds of the condition operand. -/
def Jumps (mk : Param → Param → Instr) (taken : Int → Prop) : Prop :=
  ∀ s a target x y, ReadsAs s 1 a x → ReadsAs s 2 target y →
    (taken x.toInt → y.toInt < 0 → exec (mk a target) s = .next (failedState s ⟨.addressError, 2, y.toInt⟩)) ∧
    (taken x.toInt → 0 ≤ y.toInt → exec (mk a target) s = .next { s with ip := y.toInt.toNat }) ∧
    (¬ taken x.toInt → wmax < (s.ip : Int) + 3 →
      exec (mk a target) s = .next (failedState s ⟨.arithmeticOverflow, 0, (s.ip : Int) + 3⟩)) ∧
    (¬ taken x.toInt → (s.ip : Int) + 3 ≤ wmax → exec (mk a target) s = .next { s with ip := s.ip + 3 })

end Sys2Proof.Machine

open Sys2Proof Sys2Proof.Machine

/-! ### Encoding -/

/-- R62, R63, R75: decoding the words of any instruction, whatever follows them, gives it back, every mode digit and
every parameter word included. Well-formed instructions are among them. -/
def Obligations.DecodingAnEncodedInstructionGivesItBack : Prop :=
  ∀ (i : Instr) (rest : List Word), decode (Window.ofWords (encode i ++ rest)) = .ok i

/-- R62, R63: the opcode is `w mod 100`, the mode of parameter `j` is decimal digit `j + 1`; the parameter words are those
after the instruction word (R64). -/
def Obligations.DecodeReadsTheDecimalFields : Prop :=
  ∀ (f : Window) (i : Instr), decode f = .ok i →
    0 ≤ f.w.toInt ∧ (i.opcode : Int) = f.w.toInt % 100 ∧
    (∀ j q, i.params[j]? = some q → (q.2.mode.digit : Int) = f.w.toInt / 10 ^ (j + 2) % 10) ∧
    i.params.map (fun q => q.2.word) = [f.p1, f.p2, f.p3].take i.params.length

/-- R65: digits above the last mode digit are ignored, whatever their value. -/
def Obligations.HigherDigitsAreIgnored : Prop :=
  (∀ (f : Window) (i : Instr) (w : Word), decode f = .ok i → 0 ≤ w.toInt →
    w.toInt % 10 ^ (i.params.length + 2) = f.w.toInt % 10 ^ (i.params.length + 2) →
    decode { f with w := w } = .ok i) ∧
  (∀ p1 p2 p3, decode ⟨1099, p1, p2, p3⟩ = .ok .hlt) ∧
  (∀ p1 p2 p3, decode ⟨10104, p1, p2, p3⟩ = .ok (.out ⟨.immediate, p1⟩))

/-- R66, R71: a negative word, and a word whose opcode is outside the table, raise InvalidOpcode at the fetch, with the
word as value; so does a fetch at or beyond the extent, which reads 0. -/
def Obligations.IllegalWordsRaiseInvalidOpcode : Prop :=
  ∀ s : State, s.status.state = .running →
    ((s.read s.ip).toInt < 0 ∨ (s.read s.ip).toInt % 100 ∉ [1, 2, 3, 4, 5, 6, 7, 8, 9, 99] →
      step s = .next (failedState s ⟨.invalidOpcode, 0, (s.read s.ip).toInt⟩)) ∧
    (s.mem.extent ≤ s.ip → step s = .next (failedState s ⟨.invalidOpcode, 0, 0⟩))

/-- Words of 95_test_vectors.md, section 2.1. -/
def Obligations.WordsOfTheSpecDecode : Prop :=
  decode ⟨1002, 4, 3, 4⟩ = .ok (.mul ⟨.position, 4⟩ ⟨.immediate, 3⟩ ⟨.position, 4⟩) ∧
  decode ⟨21107, 7, 8, 20⟩ = .ok (.lt ⟨.immediate, 7⟩ ⟨.immediate, 8⟩ ⟨.relative, 20⟩) ∧
  decode ⟨204, 5, 0, 0⟩ = .ok (.out ⟨.relative, 5⟩) ∧
  decode ⟨199, 1, 2, 3⟩ = .ok .hlt ∧
  decode ⟨0, 1, 2, 3⟩ = .error .invalidOpcode ∧
  decode ⟨Word.ofInt (-1), 1, 2, 3⟩ = .error .invalidOpcode

/-! ### The step -/

/-- R90 to R92: while RUNNING, a step is the meaning of the instruction decoded at `ip`; nothing is added around it. -/
def Obligations.StepRunsTheDecodedInstruction : Prop :=
  ∀ (s : State) (i : Instr), s.status.state = .running → decode (fetch s) = .ok i → step s = exec i s

/-- R104, R90: every RUNNING state has a step, to a state that is not LOADED, and no other state has one. -/
def Obligations.StepExistsExactlyWhileRunning : Prop :=
  ∀ s : State,
    (s.status.state = .running → ∃ t, step s = .next t ∧ t.status.state ≠ .loaded) ∧
    (s.status.state ≠ .running → ∀ t, step s ≠ .next t)

/-! ### The ten instructions -/

/-- R110. -/
def Obligations.AddFollowsItsRule : Prop :=
  EncodedF3RRW .add 1 ∧ (∀ s a b dst, TakesParamErrors (.add a b dst) s) ∧
  StoresResult .add (fun x y => x + y) ∧ ResultOverflows .add (fun x y => x + y)

/-- R111. -/
def Obligations.MulFollowsItsRule : Prop :=
  EncodedF3RRW .mul 2 ∧ (∀ s a b dst, TakesParamErrors (.mul a b dst) s) ∧
  StoresResult .mul (fun x y => x * y) ∧ ResultOverflows .mul (fun x y => x * y)

/-- R120. -/
def Obligations.InFollowsItsRule : Prop :=
  EncodedF1 .inp 3 [0, 2] ∧ (∀ s dst, TakesParamErrors (.inp dst) s) ∧
  ∀ s dst d, s.mem.wf = true → TargetIs s 1 dst d →
    (s.input = [] → exec (.inp dst) s = .next (failedState s ⟨.inputExhausted, 1, 0⟩)) ∧
    (∀ v q, s.input = v :: q → wmax < (s.ip : Int) + 2 →
      exec (.inp dst) s = .next (failedState s ⟨.arithmeticOverflow, 0, (s.ip : Int) + 2⟩)) ∧
    (∀ v q, s.input = v :: q → (s.ip : Int) + 2 ≤ wmax →
      ∃ t, exec (.inp dst) s = .next t ∧ MemorySet s t d v.toInt ∧ t.input = q ∧ t.ip = s.ip + 2 ∧
        t.cfg = s.cfg ∧ t.rb = s.rb ∧ t.output = s.output ∧ t.status = s.status)

/-- R121. -/
def Obligations.OutFollowsItsRule : Prop :=
  EncodedF1 .out 4 [0, 1, 2] ∧ (∀ s a, TakesParamErrors (.out a) s) ∧
  ∀ s a x, ReadsAs s 1 a x →
    (wmax < (s.ip : Int) + 2 →
      exec (.out a) s = .next (failedState s ⟨.arithmeticOverflow, 0, (s.ip : Int) + 2⟩)) ∧
    ((s.ip : Int) + 2 ≤ wmax →
      exec (.out a) s = .next { s with output := s.output ++ [x], ip := s.ip + 2 })

/-- R130. -/
def Obligations.JtFollowsItsRule : Prop :=
  EncodedF2RR .jt 5 ∧ (∀ s a target, TakesParamErrors (.jt a target) s) ∧ Jumps .jt (fun x => x ≠ 0)

/-- R131. -/
def Obligations.JfFollowsItsRule : Prop :=
  EncodedF2RR .jf 6 ∧ (∀ s a target, TakesParamErrors (.jf a target) s) ∧ Jumps .jf (fun x => x = 0)

/-- R140. -/
def Obligations.LtFollowsItsRule : Prop :=
  EncodedF3RRW .lt 7 ∧ (∀ s a b dst, TakesParamErrors (.lt a b dst) s) ∧
  StoresResult .lt (fun x y => if x < y then 1 else 0)

/-- R141. -/
def Obligations.EqFollowsItsRule : Prop :=
  EncodedF3RRW .eq 8 ∧ (∀ s a b dst, TakesParamErrors (.eq a b dst) s) ∧
  StoresResult .eq (fun x y => if x = y then 1 else 0)

/-- R150. -/
def Obligations.ArbFollowsItsRule : Prop :=
  EncodedF1 .arb 9 [0, 1, 2] ∧ (∀ s a, TakesParamErrors (.arb a) s) ∧
  ∀ s a x, ReadsAs s 1 a x →
    (¬ InRange (s.rb.toInt + x.toInt) →
      exec (.arb a) s = .next (failedState s ⟨.arithmeticOverflow, 0, s.rb.toInt + x.toInt⟩)) ∧
    (InRange (s.rb.toInt + x.toInt) → wmax < (s.ip : Int) + 2 →
      exec (.arb a) s = .next (failedState s ⟨.arithmeticOverflow, 0, (s.ip : Int) + 2⟩)) ∧
    (InRange (s.rb.toInt + x.toInt) → (s.ip : Int) + 2 ≤ wmax →
      ∃ t, exec (.arb a) s = .next t ∧ t.rb.toInt = s.rb.toInt + x.toInt ∧ t.ip = s.ip + 2 ∧
        t.cfg = s.cfg ∧ t.mem = s.mem ∧ t.input = s.input ∧ t.output = s.output ∧ t.status = s.status)

/-- R151: every non-negative word that ends in 99 halts; a halt changes STATUS.`state` alone, gives the caller the output
sequence, and has no step after it. -/
def Obligations.HltFollowsItsRule : Prop :=
  encode .hlt = [99] ∧
  (∀ f : Window, decode f = .ok .hlt ↔ 0 ≤ f.w.toInt ∧ f.w.toInt % 100 = 99) ∧
  (∀ s, exec .hlt s = .next { s with status := { s.status with state := .halted } }) ∧
  ∀ s t, exec .hlt s = .next t → runResult t = .returned s.output ∧ ∀ u, step t ≠ .next u

/-! ### Errors and the end of a run -/

/-- R98: an error leaves everything but STATUS as it was, with the error recorded. -/
def Obligations.ErrorsArePrecise : Prop :=
  ∀ s t : State, step s = .next t → t.status.state = .failed →
    t.ip = s.ip ∧ t.rb = s.rb ∧ t.mem = s.mem ∧ t.input = s.input ∧ t.output = s.output ∧ t.cfg = s.cfg ∧
    t.status.cause ≠ none ∧ t.status.faultIp = s.ip ∧ t.status.faultWord = s.read s.ip

/-- R181: what the record says of each cause. -/
def Obligations.FaultRecordFitsItsCause : Prop :=
  ∀ s t : State, step s = .next t → t.status.state = .failed →
    match t.status.cause with
    | none => False
    | some .programFormatError => False
    | some .invalidOpcode => t.status.faultParam = 0 ∧ t.status.faultValue = (s.read s.ip).toInt
    | some .invalidOperand =>
      t.status.faultParam ≠ 0 ∧
      t.status.faultValue = (s.read s.ip).toInt / 10 ^ (t.status.faultParam.val + 1) % 10 ∧
      t.status.faultValue ≠ 0 ∧ t.status.faultValue ≠ 2
    | some .addressError => t.status.faultParam ≠ 0 ∧ t.status.faultValue < 0
    | some .inputExhausted => t.status.faultParam = 1 ∧ t.status.faultValue = 0 ∧ s.input = []
    | some .arithmeticOverflow => ¬ InRange t.status.faultValue
    | some .capacityExceeded => t.status.faultParam ≠ 0 ∧ (s.cfg.memLimit : Int) ≤ t.status.faultValue

/-- R102: a run ends well exactly at opcode 99. -/
def Obligations.OnlyOpcode99Halts : Prop :=
  ∀ s t : State, step s = .next t →
    (t.status.state = .halted ↔ 0 ≤ (s.read s.ip).toInt ∧ (s.read s.ip).toInt % 100 = 99)

/-- R72: an ill-formed instruction never completes, and a well-formed one never raises InvalidOperand. -/
def Obligations.IllFormedInstructionsExactlyFail : Prop :=
  ∀ (i : Instr) (s t : State), s.status.state = .running → s.status.cause = none → exec i s = .next t →
    (i.wf = false → t.status.state = .failed) ∧ (i.wf = true → t.status.cause ≠ some .invalidOperand)

/-- R187, R5: with a `MEM_LIMIT` of `2^63` or more, CapacityExceeded does not occur. -/
def Obligations.DefaultLimitNeverExceeded : Prop :=
  ∀ s t : State, s.status.cause = none → wmax < (s.cfg.memLimit : Int) → step s = .next t →
    t.status.cause ≠ some .capacityExceeded

/-! ### What a step changes -/

/-- R21: how each instruction advances `ip`, and that an error leaves it. -/
def Obligations.IpAdvancesByTheTable : Prop :=
  (∀ s t : State, step s = .next t → t.status.state = .failed → t.ip = s.ip) ∧
  ∀ (i : Instr) (s t : State), s.status.state = .running → exec i s = .next t →
    (t.status.state = .failed → t.ip = s.ip) ∧
    (t.status.state ≠ .failed →
      match i with
      | .add _ _ _ => t.ip = s.ip + 4
      | .mul _ _ _ => t.ip = s.ip + 4
      | .lt _ _ _ => t.ip = s.ip + 4
      | .eq _ _ _ => t.ip = s.ip + 4
      | .inp _ => t.ip = s.ip + 2
      | .out _ => t.ip = s.ip + 2
      | .arb _ => t.ip = s.ip + 2
      | .jt a target =>
        ∃ x y, ReadsAs s 1 a x ∧ ReadsAs s 2 target y ∧ t.ip = if x.toInt ≠ 0 then y.toInt.toNat else s.ip + 3
      | .jf a target =>
        ∃ x y, ReadsAs s 1 a x ∧ ReadsAs s 2 target y ∧ t.ip = if x.toInt = 0 then y.toInt.toNat else s.ip + 3
      | .hlt => t.ip = s.ip)

/-- R22, R23: `rb` is changed by `arb` alone. -/
def Obligations.OnlyArbChangesTheBase : Prop :=
  ∀ s t : State, step s = .next t → t.rb ≠ s.rb → ∃ a, decode (fetch s) = .ok (.arb a)

/-- R27: the output sequence is empty at reset, only `out` appends to it, one word at the end, and a halt returns it. -/
def Obligations.OutputOnlyGrowsByOut : Prop :=
  State.reset.output = [] ∧
  (∀ s t : State, step s = .next t →
    t.output = s.output ∨ ∃ a x, decode (fetch s) = .ok (.out a) ∧ ReadsAs s 1 a x ∧ t.output = s.output ++ [x]) ∧
  ∀ s : State, s.status.state = .halted → runResult s = .returned s.output

/-- R26: the queue is empty before `run`, is the sequence passed to it afterwards, and loses its head only to an `in`,
which stores it. -/
def Obligations.InputIsConsumedInOrder : Prop :=
  State.reset.input = [] ∧
  (∀ s t q, start q s = .next t → t.input = q) ∧
  ∀ s t : State, s.mem.wf = true → step s = .next t →
    t.input = s.input ∨
    ∃ v d dst, decode (fetch s) = .ok (.inp dst) ∧ TargetIs s 1 dst d ∧ s.input = v :: t.input ∧ t.mem.read d = v

/-- R44: the extent never decreases, in a step or over a run, and a cell keeps its word until an instruction writes it. -/
def Obligations.MemoryGrowsMonotonically : Prop :=
  (∀ s n, s.mem.extent ≤ (runFor n s).mem.extent) ∧
  ∀ s t : State, s.mem.wf = true → step s = .next t →
    s.mem.extent ≤ t.mem.extent ∧ ∀ a, t.mem.read a = s.mem.read a ∨ NextStoresTo s a

/-- The frame of `add`, `mul`, `in`, `lt` and `eq`, with the stored address as the meanings compute it. -/
def Obligations.FrameOfTheStoringInstructions : Prop :=
  ∀ (i : Instr) (s t : State) (k : Fin 4) (p : Param), s.mem.wf = true → storeParam i = some (k, p) →
    exec i s = .next t →
    (∀ d, writeParam s k p = .ok d → ∀ a, a ≠ d → t.mem.read a = s.mem.read a) ∧
    (∀ e, writeParam s k p = .error e → t.mem = s.mem) ∧
    t.cfg = s.cfg ∧ t.rb = s.rb ∧ t.output = s.output ∧
    ((∀ dst, i ≠ .inp dst) → t.input = s.input) ∧
    (t.status = s.status ∨ t.status.state = .failed)

/-- The frame of `out`, `jt`, `jf`, `arb` and `hlt`, which store nothing. -/
def Obligations.FrameOfTheOtherInstructions : Prop :=
  ∀ (i : Instr) (s t : State), storeParam i = none → exec i s = .next t →
    t.mem = s.mem ∧ t.cfg = s.cfg ∧ t.input = s.input ∧
    ((∀ a, i ≠ .arb a) → t.rb = s.rb) ∧
    ((∀ a, i ≠ .out a) → t.output = s.output) ∧
    (i ≠ .hlt → t.status = s.status ∨ t.status.state = .failed)

/-- R53, R215: what `add`, `mul`, `in`, `lt` or `eq` stores over the word of the next instruction is what the next fetch
reads. -/
def Obligations.NextFetchSeesTheStore : Prop :=
  ∀ (i : Instr) (s : State) (k : Fin 4) (p : Param) (v : Int), s.mem.wf = true → storeParam i = some (k, p) →
    TargetIs s k p (s.ip + i.length) → StoresValue s v i → InRange v → (s.ip : Int) + i.length ≤ wmax →
    ∃ t, exec i s = .next t ∧ t.ip = s.ip + i.length ∧ (fetch t).w.toInt = v

/-- R31: no instruction can tell two states apart that have the same reads and differ in the extent, in one step or in a
run. -/
def Obligations.TheExtentIsUnobservable : Prop :=
  ∀ s s' : State, s.mem.wf = true → s'.mem.wf = true → SameButExtent s s' →
    (∀ t, step s = .next t → ∃ t', step s' = .next t' ∧ SameButExtent t t') ∧
    ∀ n, SameButExtent (runFor n s) (runFor n s')

/-! ### Memory -/

/-- R42: MemRead, of an instruction word, a parameter word and an operand in position or relative mode alike; and R187,
which makes it 0 at and beyond `MEM_LIMIT`, in the cells too that an image has put there (log 8). -/
def Obligations.MemReadFollowsItsRule : Prop :=
  ∀ (s : State) (i : Fin 4),
    (memRead s i s.ip = .ok (fetch s).w ∧ memRead s i (s.ip + 1) = .ok (fetch s).p1 ∧
      memRead s i (s.ip + 2) = .ok (fetch s).p2 ∧ memRead s i (s.ip + 3) = .ok (fetch s).p3) ∧
    (∀ p : Param, (s.ip : Int) + i.val ≤ wmax →
      (p.mode = .position → readParam s i p = memRead s i p.word.toInt) ∧
      (p.mode = .relative → InRange (relativeSum s p) → readParam s i p = memRead s i (relativeSum s p))) ∧
    ∀ a : Int,
    (a < 0 → memRead s i a = .error ⟨.addressError, i, a⟩) ∧
    (0 ≤ a → (s.mem.extent : Int) ≤ a → memRead s i a = .ok 0) ∧
    (0 ≤ a → (s.cfg.memLimit : Int) ≤ a → memRead s i a = .ok 0) ∧
    (0 ≤ a → a < s.mem.extent → a < s.cfg.memLimit → memRead s i a = .ok (lookupCell a.toNat s.mem.cells))

/-- R43: MemWrite, with its checks where R95 makes them, so that a commit only stores. -/
def Obligations.MemWriteFollowsItsRule : Prop :=
  (∀ (s : State) (i : Fin 4) (a : Int),
    (a < 0 → checkTarget s i a = .error ⟨.addressError, i, a⟩) ∧
    (0 ≤ a → (s.cfg.memLimit : Int) ≤ a → checkTarget s i a = .error ⟨.capacityExceeded, i, a⟩) ∧
    (0 ≤ a → a < s.cfg.memLimit → checkTarget s i a = .ok a.toNat)) ∧
  (∀ (s : State) (i : Fin 4) (p : Param), (s.ip : Int) + i.val ≤ wmax →
    (p.mode = .position → writeParam s i p = checkTarget s i p.word.toInt) ∧
    (p.mode = .relative → InRange (relativeSum s p) → writeParam s i p = checkTarget s i (relativeSum s p))) ∧
  (∀ (s : State) (e : Effect),
    (commit e s).mem = match e.store with | none => s.mem | some (a, v) => s.mem.write a v) ∧
  ∀ (m : Memory) (a : Nat) (v : Word), m.wf = true →
    (m.write a v).extent = (if m.extent ≤ a then a + 1 else m.extent) ∧ (m.write a v).read a = v ∧
    (∀ b, b < m.extent → b ≠ a → (m.write a v).read b = m.read b) ∧
    (∀ b, m.extent ≤ b → b < a → (m.write a v).read b = 0)

/-- The canonical form is the model's choice (log 1); R45 leaves the representation free. In that form, memories with one
extent and one word at every address are one datum. -/
def Obligations.CanonicalMemoriesWithEqualReadsAreEqual : Prop :=
  ∀ m n : Memory, m.wf = true → n.wf = true → m.extent = n.extent → (∀ a, m.read a = n.read a) → m = n

/-! ### The invariant -/

/-- The reset state, with the empty memory that log entry 3 gives it, meets the invariant. -/
def Obligations.ResetMeetsTheInvariant : Prop := State.reset.Inv

/-- Every step keeps the invariant, from every state that meets it. -/
def Obligations.EveryStepKeepsTheInvariant : Prop :=
  ∀ s t : State, s.Inv → Sys2Proof.Machine.step s = .next t → t.Inv

/-- A loaded instance meets the invariant where its program has no more words than there are addresses, and `run` keeps
it. -/
def Obligations.LoadAndStartMeetTheInvariant : Prop :=
  (∀ cfg text s, (text.length : Int) ≤ wmax → load cfg text = .ok s → s.Inv) ∧
  (∀ q s t, s.Inv → start q s = .next t → t.Inv)

/-! ### Host interface -/

/-- R161, R162, R164: the loader yields an instance exactly for the texts of the grammar, and ProgramFormatError
otherwise. -/
def Obligations.LoaderAcceptsExactlyTheGrammar : Prop :=
  ∀ cfg text,
    ((∃ s, load cfg text = .ok s) ↔ ∃ tokens, IsProgramText text tokens) ∧
    ((¬ ∃ tokens, IsProgramText text tokens) → load cfg text = .error .programFormatError)

/-- R163, R29: the image, and every other piece of state after construction and at the start of `run`. That the cells of an
image longer than `MEM_LIMIT` hold its words and yet read 0 from `MEM_LIMIT` on is how the model joins R163 and R187
(log 8). -/
def Obligations.LoadedInstanceHasItsResetValues : Prop :=
  ∀ cfg text tokens, IsProgramText text tokens →
    ∃ s, load cfg text = .ok s ∧ s.mem.extent = tokens.length ∧
      (∀ i t, tokens[i]? = some t → (s.mem.read i).toInt = t.value) ∧
      (∀ i, tokens.length ≤ i → s.mem.read i = 0) ∧
      (∀ i, s.read i = if i < cfg.memLimit then s.mem.read i else 0) ∧
      s.ip = 0 ∧ s.rb = 0 ∧ s.input = [] ∧ s.output = [] ∧ s.status = ⟨.loaded, none, 0, 0, 0, 0⟩ ∧ s.cfg = cfg ∧
      ∀ q, ∃ t, start q s = .next t ∧ t.ip = 0 ∧ t.rb = 0 ∧ t.mem = s.mem ∧ t.input = q ∧ t.output = [] ∧
        t.status = ⟨.running, none, 0, 0, 0, 0⟩ ∧ t.cfg = cfg

/-- R166: `run` is accepted in LOADED, and refused in every other state. -/
def Obligations.RunIsAcceptedOnlyOnce : Prop :=
  ∀ q s,
    (s.status.state = .loaded → ∃ t, start q s = .next t ∧ t.status.state = .running ∧
      ∀ q', ∃ r, start q' t = .refused r) ∧
    (s.status.state ≠ .loaded → ∃ r, start q s = .refused r)

/-- R101 to R104: more fuel continues a run that has not ended and changes nothing in one that has. -/
def Obligations.RunsContinueUntilTheyEnd : Prop :=
  ∀ s n m, runFor (n + m) s = runFor m (runFor n s) ∧
    (runResult (runFor n s) ≠ .notEnded → runFor (n + m) s = runFor n s)

/-- R122: over a run, the inputs consumed are a prefix of the queue and the outputs are added at the end. -/
def Obligations.RunsConsumeAPrefixAndAppendOutputs : Prop :=
  ∀ s n, ∃ consumed produced,
    s.input = consumed ++ (runFor n s).input ∧ (runFor n s).output = s.output ++ produced

/-- R169: the debug view of an ended run, and none before its end. -/
def Obligations.DebugViewShowsEndedRuns : Prop :=
  ∀ s : State,
    (s.status.state = .halted ∨ s.status.state = .failed →
      ∃ v, debugView s = some v ∧ v.image.length = s.mem.extent ∧
        (∀ a, a < s.mem.extent → v.image[a]? = some (s.mem.read a)) ∧ v.ip = s.ip ∧ v.rb = s.rb ∧
        v.status = s.status ∧ ∀ a, debugRead s a = some (s.read a)) ∧
    (s.status.state = .loaded ∨ s.status.state = .running → debugView s = none ∧ ∀ a, debugRead s a = none)

/-- R77: the pseudo-instructions, their effects, and that `hlt` is the only one-word instruction. -/
def Obligations.PseudoInstructionsExpandAsGiven : Prop :=
  (∀ src dst, pseudoMov src dst = .add src ⟨.immediate, 0⟩ dst) ∧
  (∀ target, pseudoJmp target = .jt ⟨.immediate, 1⟩ target) ∧
  (∀ src dst, pseudoNeg src dst = .mul src ⟨.immediate, Word.ofInt (-1)⟩ dst) ∧
  pseudoNop = .arb ⟨.immediate, 0⟩ ∧ encode pseudoNop = [109, 0] ∧
  (∀ s, (s.ip : Int) + 2 ≤ wmax → exec pseudoNop s = .next { s with ip := s.ip + 2 }) ∧
  (∀ s target y, ReadsAs s 2 target y → 0 ≤ y.toInt →
    exec (pseudoJmp target) s = .next { s with ip := y.toInt.toNat }) ∧
  (∀ s src dst x d, s.mem.wf = true → ReadsAs s 1 src x → TargetIs s 3 dst d → (s.ip : Int) + 4 ≤ wmax →
    (∃ t, exec (pseudoMov src dst) s = .next t ∧ MemorySet s t d x.toInt) ∧
    (x.toInt ≠ wmin → ∃ t, exec (pseudoNeg src dst) s = .next t ∧ MemorySet s t d (-x.toInt)) ∧
    (x.toInt = wmin →
      exec (pseudoNeg src dst) s = .next (failedState s ⟨.arithmeticOverflow, 0, 9223372036854775808⟩))) ∧
  pseudoNop.length = 2 ∧ (∀ i : Instr, i.length = 1 ↔ i = .hlt)

/-- R187: at and beyond `MEM_LIMIT` a write target raises CapacityExceeded at resolution and a read is 0, of an operand and
of the instruction word alike; with the default limit CapacityExceeded does not occur. -/
def Obligations.CapacityBoundsWritesAndNotReads : Prop :=
  ∀ s : State, (s.cfg.memLimit ≤ s.ip → (fetch s).w = 0) ∧
    ∀ (i : Fin 4) (p : Param), (s.ip : Int) + i.val ≤ wmax →
      (p.mode = .position → (s.cfg.memLimit : Int) ≤ p.word.toInt →
        writeParam s i p = .error ⟨.capacityExceeded, i, p.word.toInt⟩ ∧ readParam s i p = .ok 0) ∧
      (p.mode = .relative → InRange (relativeSum s p) → (s.cfg.memLimit : Int) ≤ relativeSum s p →
        writeParam s i p = .error ⟨.capacityExceeded, i, relativeSum s p⟩ ∧ readParam s i p = .ok 0) ∧
      (s.cfg = Config.default → ∀ e, writeParam s i p = .error e → e.error ≠ .capacityExceeded)
end

