-- ==== Sys2Proof/Laws/PerInstr.lean ====
section
/-! SUPPORT. Facts about every instruction as syntax, one lemma for each constructor. -/

namespace Sys2Proof

theorem Mode.digit_le (m : Mode) : m.digit ≤ 9 := by
  cases m with
  | position => decide
  | immediate => decide
  | relative => decide
  | unassigned k => have := k.isLt; simp only [Mode.digit]; omega

/-- R63: a mode digit names its mode. -/
@[simp] theorem Mode.ofDigit_digit (m : Mode) : Mode.ofDigit m.digit = m := by
  cases m with
  | position => rfl
  | immediate => rfl
  | relative => rfl
  | unassigned k =>
    simp only [Mode.digit, Mode.ofDigit, Mode.unassigned.injEq]
    exact Fin.ext (Nat.mod_eq_of_lt k.isLt)

/-- R63: a decimal digit is the digit of its mode. -/
theorem Mode.digit_ofDigit {n : Nat} (h : n ≤ 9) : (Mode.ofDigit n).digit = n := by
  match n, h with
  | 0, _ => rfl
  | 1, _ => rfl
  | 2, _ => rfl
  | k + 3, h =>
    simp only [Mode.digit, Mode.ofDigit, Fin.ofNat]
    rw [Nat.mod_eq_of_lt (by omega)]

namespace Laws.EncodeWordIsExact

/-- R75: the instruction word has exactly the value the rule gives; nothing is cut off. -/
def Statement (i : Instr) : Prop := (encodeWord i).toInt = (i.opcode + modeDigits 100 i.params : Nat)

theorem exact_of_small {n : Nat} (h : n < 1000000) : (BitVec.ofNat 64 n).toInt = (n : Int) := by
  have : n % 2 ^ 64 = n := Nat.mod_eq_of_lt (by omega)
  rw [BitVec.toInt_eq_toNat_cond, BitVec.toNat_ofNat, this, if_pos (by omega)]

theorem three (op : Nat) (h : op < 100) (a b c : Param) :
    (BitVec.ofNat 64 (op + modeDigits 100 [(.read, a), (.read, b), (.write, c)])).toInt =
      (op + modeDigits 100 [(.read, a), (.read, b), (.write, c)] : Nat) := by
  have ha := a.mode.digit_le
  have hb := b.mode.digit_le
  have hc := c.mode.digit_le
  exact exact_of_small (by simp only [modeDigits]; omega)

theorem two (op : Nat) (h : op < 100) (a b : Param) :
    (BitVec.ofNat 64 (op + modeDigits 100 [(.read, a), (.read, b)])).toInt =
      (op + modeDigits 100 [(.read, a), (.read, b)] : Nat) := by
  have ha := a.mode.digit_le
  have hb := b.mode.digit_le
  exact exact_of_small (by simp only [modeDigits]; omega)

theorem one (op : Nat) (h : op < 100) (x : Access) (a : Param) :
    (BitVec.ofNat 64 (op + modeDigits 100 [(x, a)])).toInt = (op + modeDigits 100 [(x, a)] : Nat) := by
  have ha := a.mode.digit_le
  exact exact_of_small (by simp only [modeDigits]; omega)

theorem add (a b dst : Param) : Statement (.add a b dst) := three 1 (by decide) a b dst
theorem mul (a b dst : Param) : Statement (.mul a b dst) := three 2 (by decide) a b dst
theorem inp (dst : Param) : Statement (.inp dst) := one 3 (by decide) .write dst
theorem out (a : Param) : Statement (.out a) := one 4 (by decide) .read a
theorem jt (a target : Param) : Statement (.jt a target) := two 5 (by decide) a target
theorem jf (a target : Param) : Statement (.jf a target) := two 6 (by decide) a target
theorem lt (a b dst : Param) : Statement (.lt a b dst) := three 7 (by decide) a b dst
theorem eq (a b dst : Param) : Statement (.eq a b dst) := three 8 (by decide) a b dst
theorem arb (a : Param) : Statement (.arb a) := one 9 (by decide) .read a
theorem hlt : Statement .hlt := exact_of_small (by decide)

end Laws.EncodeWordIsExact

end Sys2Proof
end

