-- ==== Sys2Proof/Laws/Decode.lean ====
section
/-! SUPPORT. What the decoder answers, said once. -/

namespace Sys2Proof

/-- R65, R75: the decimal digits of a word `op + 100*m1 + 1000*m2 + 10000*m3` whose `op` has two digits. -/
theorem digits_of_sum (op m1 m2 m3 rest : Nat) (hop : op < 100) (h1 : m1 ≤ 9) (h2 : m2 ≤ 9) (h3 : m3 ≤ 9) :
    opcodeOf (op + 100 * m1 + 1000 * m2 + 10000 * m3 + 100000 * rest) = op ∧
    digit (op + 100 * m1 + 1000 * m2 + 10000 * m3 + 100000 * rest) 2 = m1 ∧
    digit (op + 100 * m1 + 1000 * m2 + 10000 * m3 + 100000 * rest) 3 = m2 ∧
    digit (op + 100 * m1 + 1000 * m2 + 10000 * m3 + 100000 * rest) 4 = m3 := by
  simp only [opcodeOf, digit]
  refine ⟨?_, ?_, ?_, ?_⟩ <;> omega

theorem decode_of_neg {f : Window} (h : f.w.toInt < 0) : decode f = .error .invalidOpcode := by
  rw [decode, if_pos h]

theorem decode_of_nonneg {f : Window} (h : 0 ≤ f.w.toInt) : decode f = decodeOpcode f.w.toInt.toNat f := by
  rw [decode, if_neg (by omega)]

/-- R71: an opcode outside the table is refused. -/
theorem decodeOpcode_illegal {n : Nat} (f : Window) (h : n % 100 ∉ [1, 2, 3, 4, 5, 6, 7, 8, 9, 99]) :
    decodeOpcode n f = .error .invalidOpcode := by
  simp only [List.mem_cons, List.not_mem_nil, or_false, not_or] at h
  unfold decodeOpcode opcodeOf
  split <;> simp_all

/-- R70: what a decoded instruction is, by its opcode. -/
theorem decodeOpcode_eq_ok {n : Nat} {f : Window} {i : Instr} (h : decodeOpcode n f = .ok i) :
    (n % 100 = 1 ∧ i = .add (paramOf n 1 f.p1) (paramOf n 2 f.p2) (paramOf n 3 f.p3)) ∨
    (n % 100 = 2 ∧ i = .mul (paramOf n 1 f.p1) (paramOf n 2 f.p2) (paramOf n 3 f.p3)) ∨
    (n % 100 = 3 ∧ i = .inp (paramOf n 1 f.p1)) ∨
    (n % 100 = 4 ∧ i = .out (paramOf n 1 f.p1)) ∨
    (n % 100 = 5 ∧ i = .jt (paramOf n 1 f.p1) (paramOf n 2 f.p2)) ∨
    (n % 100 = 6 ∧ i = .jf (paramOf n 1 f.p1) (paramOf n 2 f.p2)) ∨
    (n % 100 = 7 ∧ i = .lt (paramOf n 1 f.p1) (paramOf n 2 f.p2) (paramOf n 3 f.p3)) ∨
    (n % 100 = 8 ∧ i = .eq (paramOf n 1 f.p1) (paramOf n 2 f.p2) (paramOf n 3 f.p3)) ∨
    (n % 100 = 9 ∧ i = .arb (paramOf n 1 f.p1)) ∨
    (n % 100 = 99 ∧ i = .hlt) := by
  unfold decodeOpcode opcodeOf at h
  split at h <;> simp_all

/-- Only a non-negative word decodes. -/
theorem decode_eq_ok {f : Window} {i : Instr} (h : decode f = .ok i) :
    0 ≤ f.w.toInt ∧ decodeOpcode f.w.toInt.toNat f = .ok i := by
  rcases lt_or_ge f.w.toInt 0 with h' | h'
  · rw [decode_of_neg h'] at h; cases h
  · exact ⟨h', decode_of_nonneg h' ▸ h⟩

end Sys2Proof
end

