-- ==== Sys2Proof/Laws/Memory.lean ====
section
/-! SUPPORT. The laws of memory: a read after a write, the canonical form kept by every operation, the memory of an
image. -/

namespace Sys2Proof.Machine

/-! ### Cells -/

@[simp] theorem lookupCell_consCell_same (a : Nat) (v : Word) (cs : List Cell) (h : lookupCell a cs = 0 ∨ v ≠ 0) :
    lookupCell a (consCell a v cs) = v := by
  unfold consCell
  split
  · rcases h with h | h <;> simp_all
  · simp [lookupCell]

theorem lookupCell_consCell_other {a b : Nat} (h : a ≠ b) (v : Word) (cs : List Cell) :
    lookupCell b (consCell a v cs) = lookupCell b cs := by
  unfold consCell
  split
  · rfl
  · simp [lookupCell, h]

/-- A canonical list holds no address below its bound. -/
theorem lookupCell_below {extent : Nat} : ∀ {cs : List Cell} {lo a : Nat}, cellsWf extent lo cs = true → a < lo →
    lookupCell a cs = 0
  | [], _, _, _, _ => rfl
  | (b, u) :: rest, lo, a, h, ha => by
    simp only [cellsWf, Bool.and_eq_true, decide_eq_true_eq] at h
    obtain ⟨⟨⟨h1, -⟩, -⟩, h4⟩ := h
    rw [lookupCell, if_neg (by omega)]
    exact lookupCell_below h4 (by omega)

/-- A canonical list holds no address at or above its extent. -/
theorem lookupCell_above {extent : Nat} : ∀ {cs : List Cell} {lo a : Nat}, cellsWf extent lo cs = true → extent ≤ a →
    lookupCell a cs = 0
  | [], _, _, _, _ => rfl
  | (b, u) :: rest, lo, a, h, ha => by
    simp only [cellsWf, Bool.and_eq_true, decide_eq_true_eq] at h
    obtain ⟨⟨⟨-, h2⟩, -⟩, h4⟩ := h
    rw [lookupCell, if_neg (by omega)]
    exact lookupCell_above h4 ha

theorem lookupCell_writeCell_same {extent : Nat} (a : Nat) (v : Word) : ∀ {cs : List Cell} {lo : Nat},
    cellsWf extent lo cs = true → lookupCell a (writeCell a v cs) = v
  | [], _, _ => by simp [writeCell, lookupCell]
  | (b, u) :: rest, lo, h => by
    simp only [cellsWf, Bool.and_eq_true, decide_eq_true_eq] at h
    obtain ⟨-, h4⟩ := h
    unfold writeCell
    split
    · rw [lookupCell, if_neg (by omega)]
      exact lookupCell_writeCell_same a v h4
    · split
      · subst b
        exact lookupCell_consCell_same a v rest (.inl (lookupCell_below h4 (by omega)))
      · refine lookupCell_consCell_same a v _ (.inl ?_)
        rw [lookupCell, if_neg (by omega)]
        exact lookupCell_below h4 (by omega)

theorem lookupCell_writeCell_other {a b : Nat} (h : b ≠ a) (v : Word) : ∀ cs : List Cell,
    lookupCell b (writeCell a v cs) = lookupCell b cs
  | [] => by simp [writeCell, lookupCell_consCell_other h.symm]
  | (c, u) :: rest => by
    unfold writeCell
    split
    · simp only [lookupCell, lookupCell_writeCell_other h v rest]
    · split
      · subst c
        rw [lookupCell_consCell_other h.symm, lookupCell, if_neg (Ne.symm h)]
      · rw [lookupCell_consCell_other h.symm]

/-! ### The canonical form -/

theorem cellsWf_mono {extent extent' : Nat} (he : extent ≤ extent') : ∀ {cs : List Cell} {lo lo' : Nat}, lo' ≤ lo →
    cellsWf extent lo cs = true → cellsWf extent' lo' cs = true
  | [], _, _, _, _ => rfl
  | (b, u) :: rest, lo, lo', hl, h => by
    simp only [cellsWf, Bool.and_eq_true, decide_eq_true_eq] at h ⊢
    obtain ⟨⟨⟨h1, h2⟩, h3⟩, h4⟩ := h
    exact ⟨⟨⟨by omega, by omega⟩, h3⟩, cellsWf_mono he (le_refl _) h4⟩

theorem cellsWf_consCell {extent lo a : Nat} {v : Word} {cs : List Cell} (hl : lo ≤ a) (ha : a < extent)
    (h : cellsWf extent (a + 1) cs = true) : cellsWf extent lo (consCell a v cs) = true := by
  unfold consCell
  split
  · exact cellsWf_mono (le_refl _) (by omega) h
  · next hv =>
    simp only [cellsWf, Bool.and_eq_true, decide_eq_true_eq]
    exact ⟨⟨⟨hl, ha⟩, hv⟩, h⟩

theorem cellsWf_writeCell {extent a : Nat} (v : Word) (ha : a < extent) : ∀ {cs : List Cell} {lo : Nat}, lo ≤ a →
    cellsWf extent lo cs = true → cellsWf extent lo (writeCell a v cs) = true
  | [], lo, hl, _ => cellsWf_consCell hl ha rfl
  | (b, u) :: rest, lo, hl, h => by
    have h' := h
    simp only [cellsWf, Bool.and_eq_true, decide_eq_true_eq] at h'
    obtain ⟨⟨⟨h1, h2⟩, h3⟩, h4⟩ := h'
    unfold writeCell
    split
    · simp only [cellsWf, Bool.and_eq_true, decide_eq_true_eq]
      exact ⟨⟨⟨h1, h2⟩, h3⟩, cellsWf_writeCell v ha (by omega) h4⟩
    · split
      · subst b
        exact cellsWf_consCell hl ha h4
      · refine cellsWf_consCell hl ha ?_
        simp only [cellsWf, Bool.and_eq_true, decide_eq_true_eq]
        exact ⟨⟨⟨by omega, h2⟩, h3⟩, h4⟩

/-! ### Memory -/

@[simp] theorem Memory.write_extent (m : Memory) (a : Nat) (v : Word) :
    (m.write a v).extent = max m.extent (a + 1) := rfl

theorem Memory.read_beyond {m : Memory} {a : Nat} (h : m.extent ≤ a) : m.read a = 0 := by
  rw [Memory.read, if_neg (by omega)]

/-- In canonical memory the extent does not matter to a read. -/
theorem Memory.read_eq_lookup {m : Memory} (h : m.wf = true) (a : Nat) : m.read a = lookupCell a m.cells := by
  unfold Memory.read
  split
  · rfl
  · exact (lookupCell_above h (by omega)).symm

/-- A write keeps the canonical form. -/
theorem Memory.write_wf {m : Memory} (h : m.wf = true) (a : Nat) (v : Word) : (m.write a v).wf = true :=
  cellsWf_writeCell v (show a < max m.extent (a + 1) by omega) (Nat.zero_le a)
    (cellsWf_mono (Nat.le_max_left _ _) (le_refl _) h)

theorem Memory.read_write_same {m : Memory} (h : m.wf = true) (a : Nat) (v : Word) : (m.write a v).read a = v := by
  rw [Memory.read_eq_lookup (Memory.write_wf h a v)]
  exact lookupCell_writeCell_same a v h

theorem Memory.read_write_other {m : Memory} (h : m.wf = true) {a b : Nat} (hab : b ≠ a) (v : Word) :
    (m.write a v).read b = m.read b := by
  rw [Memory.read_eq_lookup (Memory.write_wf h a v), Memory.read_eq_lookup h]
  exact lookupCell_writeCell_other hab v m.cells

/-! ### Reads of a state -/

/-- R42: below `MEM_LIMIT` a read is the cell's word. -/
theorem State.read_below {s : State} {a : Nat} (h : a < s.cfg.memLimit) : s.read a = s.mem.read a := by
  rw [State.read, if_pos h]

/-- R187: at and beyond `MEM_LIMIT` a read is 0. -/
theorem State.read_limit {s : State} {a : Nat} (h : s.cfg.memLimit ≤ a) : s.read a = 0 := by
  rw [State.read, if_neg (by omega)]

/-- R42: at and beyond the extent a read is 0. -/
theorem State.read_beyond {s : State} {a : Nat} (h : s.mem.extent ≤ a) : s.read a = 0 := by
  unfold State.read
  split
  · exact Memory.read_beyond h
  · rfl

/-- Reads depend on the cells and on `MEM_LIMIT` alone. -/
theorem State.read_congr {s t : State} {a b : Nat} (hc : t.cfg = s.cfg) (hab : a = b) (hm : t.mem.read a = s.mem.read b) :
    t.read a = s.read b := by
  subst hab
  rw [State.read, State.read, hc, hm]

/-! ### Placing words -/

theorem placeWord_wf {m : Memory} (h : m.wf = true) (a : Nat) (v : Word) : (placeWord a v m).wf = true := by
  unfold placeWord
  split
  · exact Memory.write_wf h a v
  · exact h

theorem placeWindow_wf {m : Memory} (h : m.wf = true) (a : Nat) (f : Window) : (placeWindow a f m).wf = true :=
  placeWord_wf (placeWord_wf (placeWord_wf (placeWord_wf h _ _) _ _) _ _) _ _

/-! ### Images -/

theorem cellsWf_imageCells : ∀ (image : List Word) (lo : Nat), cellsWf (lo + image.length) lo (imageCells lo image) = true
  | [], _ => rfl
  | v :: rest, lo => by
    have h := cellsWf_imageCells rest (lo + 1)
    rw [show lo + 1 + rest.length = lo + (v :: rest).length by simp; omega] at h
    exact cellsWf_consCell (le_refl lo) (by simp) h

/-- A loaded memory is in canonical form. -/
theorem Memory.ofImage_wf (image : List Word) : (Memory.ofImage image).wf = true := by
  simpa [Memory.wf, Memory.ofImage] using cellsWf_imageCells image 0

theorem lookupCell_imageCells : ∀ (image : List Word) (lo i : Nat),
    lookupCell (lo + i) (imageCells lo image) = image.getD i 0
  | [], _, _ => by simp [imageCells, lookupCell]
  | v :: rest, lo, 0 => by
    have h := cellsWf_imageCells rest (lo + 1)
    simpa [imageCells] using lookupCell_consCell_same lo v _ (.inl (lookupCell_below h (by omega)))
  | v :: rest, lo, i + 1 => by
    have h := lookupCell_imageCells rest (lo + 1) i
    rw [imageCells, lookupCell_consCell_other (by omega), show lo + (i + 1) = lo + 1 + i by omega, h]
    simp

/-- R163: cell `i` of a loaded memory is word `i` of the image, and 0 beyond it. -/
theorem Memory.read_ofImage (image : List Word) (i : Nat) : (Memory.ofImage image).read i = image.getD i 0 := by
  rw [Memory.read_eq_lookup (Memory.ofImage_wf image)]
  simpa [Memory.ofImage] using lookupCell_imageCells image 0 i

end Sys2Proof.Machine
end

