-- ==== Sys2Proof/Laws/Operands.lean ====
section
/-! SUPPORT. What the range check, the address checks and operand resolution can answer, said once: resolution answers
a value exactly where `ReadsAs` or `TargetIs` says so, and an error exactly where `ReadFails` or `TargetFails` does. -/

namespace Sys2Proof.Machine

/-! ### Except -/

theorem bind_eq_ok {ε α β : Type} {x : Except ε α} {f : α → Except ε β} {b : β} :
    (x >>= f) = .ok b ↔ ∃ a, x = .ok a ∧ f a = .ok b := by
  cases x with
  | error e => simp [bind, Except.bind]
  | ok a => simp [bind, Except.bind]

theorem bind_eq_error {ε α β : Type} {x : Except ε α} {f : α → Except ε β} {e : ε} :
    (x >>= f) = .error e ↔ x = .error e ∨ ∃ a, x = .ok a ∧ f a = .error e := by
  cases x with
  | error e => simp [bind, Except.bind]
  | ok a => simp [bind, Except.bind]

/-! ### Checks -/

theorem chk_eq_ok {i : Fin 4} {v r : Int} : chk i v = .ok r ↔ InRange v ∧ r = v := by
  unfold chk
  split
  · next h => exact ⟨fun e => ⟨h, (Except.ok.inj e).symm⟩, fun e => e.2 ▸ rfl⟩
  · next h => simp only [h, reduceCtorEq, false_and]

theorem chk_eq_error {i : Fin 4} {v : Int} {e : Raise} :
    chk i v = .error e ↔ ¬ InRange v ∧ e = ⟨.arithmeticOverflow, i, v⟩ := by
  unfold chk
  split <;> simp_all [eq_comm]

theorem memRead_eq_ok {s : State} {i : Fin 4} {a : Int} {v : Word} :
    memRead s i a = .ok v ↔ 0 ≤ a ∧ v = s.read a.toNat := by
  unfold memRead
  split
  · simp; omega
  · simp [eq_comm]; omega

theorem memRead_eq_error {s : State} {i : Fin 4} {a : Int} {e : Raise} :
    memRead s i a = .error e ↔ a < 0 ∧ e = ⟨.addressError, i, a⟩ := by
  unfold memRead
  split <;> simp_all [eq_comm]

theorem checkTarget_eq_ok {s : State} {i : Fin 4} {a : Int} {d : Nat} :
    checkTarget s i a = .ok d ↔ d < s.cfg.memLimit ∧ a = d := by
  unfold checkTarget
  split
  · simp; omega
  · split
    · simp; omega
    · simp; omega

theorem checkTarget_eq_error {s : State} {i : Fin 4} {a : Int} {e : Raise} :
    checkTarget s i a = .error e ↔
      (a < 0 ∧ e = ⟨.addressError, i, a⟩) ∨
      (0 ≤ a ∧ (s.cfg.memLimit : Int) ≤ a ∧ e = ⟨.capacityExceeded, i, a⟩) := by
  unfold checkTarget
  split
  · next h => simp [h, eq_comm]
  · next h =>
    split
    · next h2 =>
      have h3 : 0 ≤ a := by omega
      have h4 : (s.cfg.memLimit : Int) ≤ a := by omega
      simp [h, h3, h4, eq_comm]
    · simp; omega

theorem successor_eq_ok {s : State} {k n : Nat} :
    successor s k = .ok n ↔ (s.ip : Int) + 1 + k ≤ wmax ∧ n = s.ip + 1 + k := by
  unfold successor
  split <;> simp_all [eq_comm]

theorem successor_eq_error {s : State} {k : Nat} {e : Raise} :
    successor s k = .error e ↔ wmax < (s.ip : Int) + 1 + k ∧ e = ⟨.arithmeticOverflow, 0, (s.ip : Int) + 1 + k⟩ := by
  unfold successor
  split
  · next h => simp [h]
  · next h => simp [eq_comm]; omega

theorem paramAddress_eq_ok {s : State} {i : Fin 4} {r : Int} :
    paramAddress s i = .ok r ↔ (s.ip : Int) + i.val ≤ wmax ∧ r = (s.ip : Int) + i.val := by
  unfold paramAddress
  rw [chk_eq_ok]
  constructor
  · exact fun h => ⟨h.1.2, h.2⟩
  · exact fun h => ⟨⟨by simp only [wmin]; omega, h.1⟩, h.2⟩

theorem paramAddress_eq_error {s : State} {i : Fin 4} {e : Raise} :
    paramAddress s i = .error e ↔
      wmax < (s.ip : Int) + i.val ∧ e = ⟨.arithmeticOverflow, i, (s.ip : Int) + i.val⟩ := by
  unfold paramAddress
  rw [chk_eq_error]
  refine and_congr_left fun _ => ?_
  simp only [InRange, wmin, wmax]
  omega

/-! ### Resolution -/

theorem paramAddress_bind_eq_ok {β : Type} {s : State} {i : Fin 4} {f : Int → Except Raise β} {r : β} :
    (paramAddress s i >>= f) = .ok r ↔ (s.ip : Int) + i.val ≤ wmax ∧ f ((s.ip : Int) + i.val) = .ok r := by
  simp only [bind_eq_ok, paramAddress_eq_ok, and_assoc, exists_and_left, exists_eq_left]

theorem paramAddress_bind_eq_error {β : Type} {s : State} {i : Fin 4} {f : Int → Except Raise β} {e : Raise} :
    (paramAddress s i >>= f) = .error e ↔
      (wmax < (s.ip : Int) + i.val ∧ e = ⟨.arithmeticOverflow, i, (s.ip : Int) + i.val⟩) ∨
      ((s.ip : Int) + i.val ≤ wmax ∧ f ((s.ip : Int) + i.val) = .error e) := by
  simp only [bind_eq_error, paramAddress_eq_ok, paramAddress_eq_error, and_assoc, exists_and_left, exists_eq_left]

theorem relativeAddress_bind_eq_ok {β : Type} {s : State} {i : Fin 4} {p : Word} {f : Int → Except Raise β} {r : β} :
    (relativeAddress s i p >>= f) = .ok r ↔
      InRange (s.rb.toInt + p.toInt) ∧ f (s.rb.toInt + p.toInt) = .ok r := by
  simp only [relativeAddress, bind_eq_ok, chk_eq_ok, and_assoc, exists_and_left, exists_eq_left]

theorem relativeAddress_bind_eq_error {β : Type} {s : State} {i : Fin 4} {p : Word} {f : Int → Except Raise β}
    {e : Raise} :
    (relativeAddress s i p >>= f) = .error e ↔
      (¬ InRange (s.rb.toInt + p.toInt) ∧ e = ⟨.arithmeticOverflow, i, s.rb.toInt + p.toInt⟩) ∨
      (InRange (s.rb.toInt + p.toInt) ∧ f (s.rb.toInt + p.toInt) = .error e) := by
  simp only [relativeAddress, bind_eq_error, chk_eq_ok, chk_eq_error, and_assoc, exists_and_left, exists_eq_left]

/-- R94: `readParam` answers a value exactly where the parameter reads as it. -/
theorem readParam_eq_ok {s : State} {i : Fin 4} {p : Param} {v : Word} :
    readParam s i p = .ok v ↔ ReadsAs s i p v := by
  obtain ⟨m, w⟩ := p
  cases m with
  | position => simp only [readParam, ReadsAs, paramAddress_bind_eq_ok, memRead_eq_ok]
  | immediate =>
    simp only [readParam, ReadsAs, paramAddress_bind_eq_ok, Except.ok.injEq]
    exact and_congr_right fun _ => eq_comm
  | relative =>
    simp only [readParam, ReadsAs, relativeSum, paramAddress_bind_eq_ok, relativeAddress_bind_eq_ok, memRead_eq_ok]
  | unassigned k => simp only [readParam, ReadsAs, reduceCtorEq, and_false]

/-- R94, R182: `readParam` answers an error exactly where the parameter fails with it. -/
theorem readParam_eq_error {s : State} {i : Fin 4} {p : Param} {e : Raise} :
    readParam s i p = .error e ↔ ReadFails s i p e := by
  obtain ⟨m, w⟩ := p
  cases m with
  | position => simp only [readParam, ReadFails, paramAddress_bind_eq_error, memRead_eq_error]
  | immediate => simp only [readParam, ReadFails, paramAddress_bind_eq_error, reduceCtorEq, and_false, or_false]
  | relative =>
    simp only [readParam, ReadFails, relativeSum, paramAddress_bind_eq_error, relativeAddress_bind_eq_error,
      memRead_eq_error, and_or_left]
  | unassigned k => simp only [readParam, ReadFails, Except.error.injEq, eq_comm]

/-- R95: `writeParam` answers an address exactly where it is the parameter's target. -/
theorem writeParam_eq_ok {s : State} {i : Fin 4} {p : Param} {d : Nat} :
    writeParam s i p = .ok d ↔ TargetIs s i p d := by
  obtain ⟨m, w⟩ := p
  cases m with
  | position => simp only [writeParam, TargetIs, paramAddress_bind_eq_ok, checkTarget_eq_ok]
  | immediate => simp only [writeParam, TargetIs, reduceCtorEq, and_false]
  | relative =>
    simp only [writeParam, TargetIs, relativeSum, paramAddress_bind_eq_ok, relativeAddress_bind_eq_ok,
      checkTarget_eq_ok]
    exact and_congr_right fun _ => and_left_comm
  | unassigned k => simp only [writeParam, TargetIs, reduceCtorEq, and_false]

/-- R95, R182: `writeParam` answers an error exactly where the parameter fails with it. -/
theorem writeParam_eq_error {s : State} {i : Fin 4} {p : Param} {e : Raise} :
    writeParam s i p = .error e ↔ TargetFails s i p e := by
  obtain ⟨m, w⟩ := p
  cases m with
  | position =>
    simp only [writeParam, TargetFails, paramAddress_bind_eq_error, checkTarget_eq_error, and_or_left]
  | immediate => simp only [writeParam, TargetFails, Except.error.injEq, eq_comm]
  | relative =>
    simp only [writeParam, TargetFails, relativeSum, paramAddress_bind_eq_error, relativeAddress_bind_eq_error,
      checkTarget_eq_error, and_or_left]
  | unassigned k => simp only [writeParam, TargetFails, Except.error.injEq, eq_comm]

/-! ### The shape of format F3RRW -/

/-- What `threeParams` answers where all goes well. -/
theorem threeParams_eq_ok {f : Word → Word → Except Raise Word} {a b dst : Param} {s : State} {e : Effect} :
    threeParams f a b dst s = .ok e ↔
      ∃ x y d r, ReadsAs s 1 a x ∧ ReadsAs s 2 b y ∧ TargetIs s 3 dst d ∧ f x y = .ok r ∧
        (s.ip : Int) + 1 + 3 ≤ wmax ∧ e = { store := some (d, r), control := .goto (s.ip + 1 + 3) } := by
  simp only [threeParams, bind_eq_ok, readParam_eq_ok, writeParam_eq_ok, successor_eq_ok, Except.ok.injEq]
  constructor
  · rintro ⟨x, hx, y, hy, d, hd, r, hr, n, ⟨hn, rfl⟩, rfl⟩
    exact ⟨x, y, d, r, hx, hy, hd, hr, hn, rfl⟩
  · rintro ⟨x, y, d, r, hx, hy, hd, hr, hn, rfl⟩
    exact ⟨x, hx, y, hy, d, hd, r, hr, _, ⟨hn, rfl⟩, rfl⟩

/-- What `threeParams` answers where a check fails. -/
theorem threeParams_eq_error {f : Word → Word → Except Raise Word} {a b dst : Param} {s : State} {e : Raise} :
    threeParams f a b dst s = .error e ↔
      FirstParamError s 1 [(.read, a), (.read, b), (.write, dst)] e ∨
      ∃ x y d, ReadsAs s 1 a x ∧ ReadsAs s 2 b y ∧ TargetIs s 3 dst d ∧
        (f x y = .error e ∨ ∃ r, f x y = .ok r ∧ wmax < (s.ip : Int) + 1 + 3 ∧
          e = ⟨.arithmeticOverflow, 0, (s.ip : Int) + 1 + 3⟩) := by
  simp only [threeParams, bind_eq_error, readParam_eq_ok, readParam_eq_error, writeParam_eq_ok, writeParam_eq_error,
    successor_eq_error, FirstParamError, ParamFails, ParamResolves, reduceCtorEq, and_false, exists_false, or_false]
  change (ReadFails s 1 a e ∨ _) ↔ ((ReadFails s 1 a e ∨ _) ∨ _)
  constructor
  · rintro (h | ⟨x, hx, h | ⟨y, hy, h | ⟨d, hd, h | ⟨r, hr, h⟩⟩⟩⟩)
    · exact .inl (.inl h)
    · exact .inl (.inr ⟨⟨x, hx⟩, .inl h⟩)
    · exact .inl (.inr ⟨⟨x, hx⟩, .inr ⟨⟨y, hy⟩, h⟩⟩)
    · exact .inr ⟨x, y, d, hx, hy, hd, .inl h⟩
    · exact .inr ⟨x, y, d, hx, hy, hd, .inr ⟨r, hr, h⟩⟩
  · rintro ((h | ⟨⟨x, hx⟩, h | ⟨⟨y, hy⟩, h⟩⟩) | ⟨x, y, d, hx, hy, hd, h | ⟨r, hr, h⟩⟩)
    · exact .inl h
    · exact .inr ⟨x, hx, .inl h⟩
    · exact .inr ⟨x, hx, .inr ⟨y, hy, .inl h⟩⟩
    · exact .inr ⟨x, hx, .inr ⟨y, hy, .inr ⟨d, hd, .inl h⟩⟩⟩
    · exact .inr ⟨x, hx, .inr ⟨y, hy, .inr ⟨d, hd, .inr ⟨r, hr, h⟩⟩⟩⟩

end Sys2Proof.Machine
end

