-- ==== Sys2Proof/Laws/State.lean ====
section
/-! SUPPORT. One lemma for each field of State under each named update. -/

namespace Sys2Proof.Machine

@[simp] theorem State.setIp_cfg (a : Nat) (s : State) : (State.setIp a s).cfg = s.cfg := rfl
@[simp] theorem State.setIp_ip (a : Nat) (s : State) : (State.setIp a s).ip = a := rfl
@[simp] theorem State.setIp_rb (a : Nat) (s : State) : (State.setIp a s).rb = s.rb := rfl
@[simp] theorem State.setIp_mem (a : Nat) (s : State) : (State.setIp a s).mem = s.mem := rfl
@[simp] theorem State.setIp_input (a : Nat) (s : State) : (State.setIp a s).input = s.input := rfl
@[simp] theorem State.setIp_output (a : Nat) (s : State) : (State.setIp a s).output = s.output := rfl
@[simp] theorem State.setIp_status (a : Nat) (s : State) : (State.setIp a s).status = s.status := rfl

@[simp] theorem State.setRb_cfg (v : Word) (s : State) : (State.setRb v s).cfg = s.cfg := rfl
@[simp] theorem State.setRb_ip (v : Word) (s : State) : (State.setRb v s).ip = s.ip := rfl
@[simp] theorem State.setRb_rb (v : Word) (s : State) : (State.setRb v s).rb = v := rfl
@[simp] theorem State.setRb_mem (v : Word) (s : State) : (State.setRb v s).mem = s.mem := rfl
@[simp] theorem State.setRb_input (v : Word) (s : State) : (State.setRb v s).input = s.input := rfl
@[simp] theorem State.setRb_output (v : Word) (s : State) : (State.setRb v s).output = s.output := rfl
@[simp] theorem State.setRb_status (v : Word) (s : State) : (State.setRb v s).status = s.status := rfl

@[simp] theorem State.store_cfg (a : Nat) (v : Word) (s : State) : (State.store a v s).cfg = s.cfg := rfl
@[simp] theorem State.store_ip (a : Nat) (v : Word) (s : State) : (State.store a v s).ip = s.ip := rfl
@[simp] theorem State.store_rb (a : Nat) (v : Word) (s : State) : (State.store a v s).rb = s.rb := rfl
@[simp] theorem State.store_mem (a : Nat) (v : Word) (s : State) : (State.store a v s).mem = s.mem.write a v := rfl
@[simp] theorem State.store_input (a : Nat) (v : Word) (s : State) : (State.store a v s).input = s.input := rfl
@[simp] theorem State.store_output (a : Nat) (v : Word) (s : State) : (State.store a v s).output = s.output := rfl
@[simp] theorem State.store_status (a : Nat) (v : Word) (s : State) : (State.store a v s).status = s.status := rfl

@[simp] theorem State.popInput_cfg (s : State) : (State.popInput s).cfg = s.cfg := rfl
@[simp] theorem State.popInput_ip (s : State) : (State.popInput s).ip = s.ip := rfl
@[simp] theorem State.popInput_rb (s : State) : (State.popInput s).rb = s.rb := rfl
@[simp] theorem State.popInput_mem (s : State) : (State.popInput s).mem = s.mem := rfl
@[simp] theorem State.popInput_input (s : State) : (State.popInput s).input = s.input.tail := rfl
@[simp] theorem State.popInput_output (s : State) : (State.popInput s).output = s.output := rfl
@[simp] theorem State.popInput_status (s : State) : (State.popInput s).status = s.status := rfl

@[simp] theorem State.pushOutput_cfg (v : Word) (s : State) : (State.pushOutput v s).cfg = s.cfg := rfl
@[simp] theorem State.pushOutput_ip (v : Word) (s : State) : (State.pushOutput v s).ip = s.ip := rfl
@[simp] theorem State.pushOutput_rb (v : Word) (s : State) : (State.pushOutput v s).rb = s.rb := rfl
@[simp] theorem State.pushOutput_mem (v : Word) (s : State) : (State.pushOutput v s).mem = s.mem := rfl
@[simp] theorem State.pushOutput_input (v : Word) (s : State) : (State.pushOutput v s).input = s.input := rfl
@[simp] theorem State.pushOutput_output (v : Word) (s : State) : (State.pushOutput v s).output = s.output ++ [v] := rfl
@[simp] theorem State.pushOutput_status (v : Word) (s : State) : (State.pushOutput v s).status = s.status := rfl

@[simp] theorem State.setRunState_cfg (r : RunState) (s : State) : (State.setRunState r s).cfg = s.cfg := rfl
@[simp] theorem State.setRunState_ip (r : RunState) (s : State) : (State.setRunState r s).ip = s.ip := rfl
@[simp] theorem State.setRunState_rb (r : RunState) (s : State) : (State.setRunState r s).rb = s.rb := rfl
@[simp] theorem State.setRunState_mem (r : RunState) (s : State) : (State.setRunState r s).mem = s.mem := rfl
@[simp] theorem State.setRunState_input (r : RunState) (s : State) : (State.setRunState r s).input = s.input := rfl
@[simp] theorem State.setRunState_output (r : RunState) (s : State) : (State.setRunState r s).output = s.output := rfl
@[simp] theorem State.setRunState_status (r : RunState) (s : State) : (State.setRunState r s).status = { s.status with state := r } := rfl

@[simp] theorem State.setStatus_cfg (st : Status) (s : State) : (State.setStatus st s).cfg = s.cfg := rfl
@[simp] theorem State.setStatus_ip (st : Status) (s : State) : (State.setStatus st s).ip = s.ip := rfl
@[simp] theorem State.setStatus_rb (st : Status) (s : State) : (State.setStatus st s).rb = s.rb := rfl
@[simp] theorem State.setStatus_mem (st : Status) (s : State) : (State.setStatus st s).mem = s.mem := rfl
@[simp] theorem State.setStatus_input (st : Status) (s : State) : (State.setStatus st s).input = s.input := rfl
@[simp] theorem State.setStatus_output (st : Status) (s : State) : (State.setStatus st s).output = s.output := rfl
@[simp] theorem State.setStatus_status (st : Status) (s : State) : (State.setStatus st s).status = st := rfl

@[simp] theorem State.setIp_read (a b : Nat) (s : State) : (State.setIp a s).read b = s.read b := rfl
@[simp] theorem State.setRb_read (v : Word) (b : Nat) (s : State) : (State.setRb v s).read b = s.read b := rfl
@[simp] theorem State.popInput_read (b : Nat) (s : State) : (State.popInput s).read b = s.read b := rfl
@[simp] theorem State.pushOutput_read (v : Word) (b : Nat) (s : State) : (State.pushOutput v s).read b = s.read b := rfl
@[simp] theorem State.setRunState_read (r : RunState) (b : Nat) (s : State) : (State.setRunState r s).read b = s.read b := rfl
@[simp] theorem State.setStatus_read (st : Status) (b : Nat) (s : State) : (State.setStatus st s).read b = s.read b := rfl

end Sys2Proof.Machine
end

