-- ==== Sys2Proof/Laws/Step.lean ====
section
/-! SUPPORT. What a commit, an instruction and a step can do, each said once. -/

namespace Sys2Proof.Machine

/-! ### Commit and error -/

theorem raise_eq_failedState (e : Raise) (s : State) : raise e s = failedState s e := rfl

@[simp] theorem commit_cfg (e : Effect) (s : State) : (commit e s).cfg = s.cfg := by
  obtain ⟨st, io, b, c⟩ := e
  cases st <;> cases io <;> cases b <;> cases c <;> rfl

theorem commit_ip (e : Effect) (s : State) :
    (commit e s).ip = match e.control with | .goto a => a | .halt => s.ip := by
  obtain ⟨st, io, b, c⟩ := e
  cases st <;> cases io <;> cases b <;> cases c <;> rfl

theorem commit_rb (e : Effect) (s : State) : (commit e s).rb = match e.base with | none => s.rb | some v => v := by
  obtain ⟨st, io, b, c⟩ := e
  cases st <;> cases io <;> cases b <;> cases c <;> rfl

theorem commit_mem (e : Effect) (s : State) :
    (commit e s).mem = match e.store with | none => s.mem | some (a, v) => s.mem.write a v := by
  obtain ⟨st, io, b, c⟩ := e
  cases st <;> cases io <;> cases b <;> cases c <;> rfl

theorem commit_input (e : Effect) (s : State) :
    (commit e s).input = match e.io with | .none => s.input | .pop => s.input.tail | .push _ => s.input := by
  obtain ⟨st, io, b, c⟩ := e
  cases st <;> cases io <;> cases b <;> cases c <;> rfl

theorem commit_output (e : Effect) (s : State) :
    (commit e s).output = match e.io with | .none => s.output | .pop => s.output | .push v => s.output ++ [v] := by
  obtain ⟨st, io, b, c⟩ := e
  cases st <;> cases io <;> cases b <;> cases c <;> rfl

theorem commit_status (e : Effect) (s : State) :
    (commit e s).status =
      match e.control with | .goto _ => s.status | .halt => { s.status with state := .halted } := by
  obtain ⟨st, io, b, c⟩ := e
  cases st <;> cases io <;> cases b <;> cases c <;> rfl

/-- A committed store of a word into canonical memory. -/
theorem memorySet_write {s t : State} {d : Nat} {r : Word} (h : s.mem.wf = true) (ht : t.mem = s.mem.write d r) :
    MemorySet s t d r.toInt := by
  refine ⟨?_, ?_, ?_⟩
  · rw [ht, Memory.read_write_same h]
  · intro a ha
    rw [ht, Memory.read_write_other h ha]
  · rw [ht, Memory.write_extent]

/-! ### Words -/

theorem toInt_ofInt {v : Int} (h : InRange v) : (Word.ofInt v).toInt = v := by
  simp only [InRange, wmin, wmax] at h
  rw [BitVec.toInt_ofInt, Int.bmod_eq_of_le]
  · norm_num; omega
  · norm_num; omega

theorem inRange_toInt (w : Word) : InRange w.toInt := by
  have h1 := BitVec.le_toInt w
  have h2 := BitVec.toInt_lt (x := w)
  norm_num at h1 h2
  exact ⟨h1, by simp only [wmax]; omega⟩

theorem checkedWord_eq_ok {v : Int} {r : Word} : checkedWord v = .ok r ↔ InRange v ∧ r = Word.ofInt v := by
  simp only [checkedWord, bind_eq_ok, chk_eq_ok, and_assoc, exists_and_left, exists_eq_left, Except.ok.injEq]
  exact and_congr_right fun _ => and_congr_right fun _ => eq_comm

theorem checkedWord_eq_error {v : Int} {e : Raise} :
    checkedWord v = .error e ↔ ¬ InRange v ∧ e = ⟨.arithmeticOverflow, 0, v⟩ := by
  simp only [checkedWord, bind_eq_error, chk_eq_error, reduceCtorEq, and_false, exists_false, or_false]

/-! ### Instructions -/

/-- The effect or error that `exec` retires. -/
def effectOf (i : Instr) (s : State) : Except Raise Effect :=
  match i with
  | .add a b dst => threeParams (fun x y => checkedWord (x.toInt + y.toInt)) a b dst s
  | .mul a b dst => threeParams (fun x y => checkedWord (x.toInt * y.toInt)) a b dst s
  | .inp dst => inputEffect dst s
  | .out a => outputEffect a s
  | .jt a target => jumpEffect (fun x => nonZero x) a target s
  | .jf a target => jumpEffect (fun x => !nonZero x) a target s
  | .lt a b dst => threeParams (fun x y => .ok (truthWord (lessThan x y))) a b dst s
  | .eq a b dst => threeParams (fun x y => .ok (truthWord (equalWords x y))) a b dst s
  | .arb a => baseEffect a s
  | .hlt => .ok { control := .halt }

theorem exec_eq_retire (i : Instr) (s : State) : exec i s = retire (effectOf i s) s := by cases i <;> rfl

/-- R97, R98: every instruction commits its whole effect or takes its error. -/
theorem exec_eq_next {i : Instr} {s t : State} : exec i s = .next t ↔
    (∃ e, effectOf i s = .ok e ∧ t = commit e s) ∨ ∃ e, effectOf i s = .error e ∧ t = failedState s e := by
  rw [exec_eq_retire]
  cases h : effectOf i s with
  | ok e => simp [retire, eq_comm]
  | error e => simp [retire, raise_eq_failedState, eq_comm]

theorem exec_of_effect {i : Instr} {s : State} {e : Effect} (h : effectOf i s = .ok e) :
    exec i s = .next (commit e s) := by rw [exec_eq_retire, h]; rfl

theorem exec_of_error {i : Instr} {s : State} {e : Raise} (h : effectOf i s = .error e) :
    exec i s = .next (failedState s e) := by rw [exec_eq_retire, h]; rfl

theorem inputEffect_eq_ok {dst : Param} {s : State} {e : Effect} : inputEffect dst s = .ok e ↔
    ∃ d v q, TargetIs s 1 dst d ∧ s.input = v :: q ∧ (s.ip : Int) + 1 + 1 ≤ wmax ∧
      e = { store := some (d, v), io := .pop, control := .goto (s.ip + 1 + 1) } := by
  simp only [inputEffect, bind_eq_ok, writeParam_eq_ok]
  cases hq : s.input with
  | nil => simp
  | cons v q =>
    simp only [bind_eq_ok, successor_eq_ok, Except.ok.injEq, List.cons.injEq]
    constructor
    · rintro ⟨d, hd, n, ⟨hn, rfl⟩, rfl⟩
      exact ⟨d, v, q, hd, ⟨rfl, rfl⟩, hn, rfl⟩
    · rintro ⟨d, -, -, hd, ⟨rfl, rfl⟩, hn, rfl⟩
      exact ⟨d, hd, _, ⟨hn, rfl⟩, rfl⟩

theorem inputEffect_eq_error {dst : Param} {s : State} {e : Raise} : inputEffect dst s = .error e ↔
    TargetFails s 1 dst e ∨
    ((∃ d, TargetIs s 1 dst d) ∧ s.input = [] ∧ e = ⟨.inputExhausted, 1, 0⟩) ∨
    ((∃ d, TargetIs s 1 dst d) ∧ s.input ≠ [] ∧ wmax < (s.ip : Int) + 1 + 1 ∧
      e = ⟨.arithmeticOverflow, 0, (s.ip : Int) + 1 + 1⟩) := by
  simp only [inputEffect, bind_eq_error, writeParam_eq_ok, writeParam_eq_error]
  cases hq : s.input with
  | nil => simp [eq_comm]
  | cons v q => simp [bind_eq_error, successor_eq_error]

theorem outputEffect_eq_ok {a : Param} {s : State} {e : Effect} : outputEffect a s = .ok e ↔
    ∃ x, ReadsAs s 1 a x ∧ (s.ip : Int) + 1 + 1 ≤ wmax ∧ e = { io := .push x, control := .goto (s.ip + 1 + 1) } := by
  simp only [outputEffect, bind_eq_ok, readParam_eq_ok, successor_eq_ok, Except.ok.injEq]
  constructor
  · rintro ⟨x, hx, n, ⟨hn, rfl⟩, rfl⟩
    exact ⟨x, hx, hn, rfl⟩
  · rintro ⟨x, hx, hn, rfl⟩
    exact ⟨x, hx, _, ⟨hn, rfl⟩, rfl⟩

theorem outputEffect_eq_error {a : Param} {s : State} {e : Raise} : outputEffect a s = .error e ↔
    ReadFails s 1 a e ∨
    ((∃ x, ReadsAs s 1 a x) ∧ wmax < (s.ip : Int) + 1 + 1 ∧ e = ⟨.arithmeticOverflow, 0, (s.ip : Int) + 1 + 1⟩) := by
  simp [outputEffect, bind_eq_error, readParam_eq_ok, readParam_eq_error, successor_eq_error]

theorem baseEffect_eq_ok {a : Param} {s : State} {e : Effect} : baseEffect a s = .ok e ↔
    ∃ x, ReadsAs s 1 a x ∧ InRange (s.rb.toInt + x.toInt) ∧ (s.ip : Int) + 1 + 1 ≤ wmax ∧
      e = { base := some (Word.ofInt (s.rb.toInt + x.toInt)), control := .goto (s.ip + 1 + 1) } := by
  simp only [baseEffect, bind_eq_ok, readParam_eq_ok, checkedWord_eq_ok, successor_eq_ok, Except.ok.injEq]
  constructor
  · rintro ⟨x, hx, r, ⟨hr, rfl⟩, n, ⟨hn, rfl⟩, rfl⟩
    exact ⟨x, hx, hr, hn, rfl⟩
  · rintro ⟨x, hx, hr, hn, rfl⟩
    exact ⟨x, hx, _, ⟨hr, rfl⟩, _, ⟨hn, rfl⟩, rfl⟩

theorem baseEffect_eq_error {a : Param} {s : State} {e : Raise} : baseEffect a s = .error e ↔
    ReadFails s 1 a e ∨
    ∃ x, ReadsAs s 1 a x ∧
      ((¬ InRange (s.rb.toInt + x.toInt) ∧ e = ⟨.arithmeticOverflow, 0, s.rb.toInt + x.toInt⟩) ∨
       (InRange (s.rb.toInt + x.toInt) ∧ wmax < (s.ip : Int) + 1 + 1 ∧
         e = ⟨.arithmeticOverflow, 0, (s.ip : Int) + 1 + 1⟩)) := by
  simp only [baseEffect, bind_eq_error, readParam_eq_ok, readParam_eq_error, checkedWord_eq_ok, checkedWord_eq_error,
    successor_eq_error, reduceCtorEq, and_false, exists_false, or_false, and_assoc, exists_and_left,
    exists_eq_left]
  simp only [Nat.cast_one]

theorem jumpEffect_eq_ok {c : Word → Bool} {a target : Param} {s : State} {e : Effect} :
    jumpEffect c a target s = .ok e ↔
      ∃ x y, ReadsAs s 1 a x ∧ ReadsAs s 2 target y ∧
        ((c x = true ∧ 0 ≤ y.toInt ∧ e = { control := .goto y.toInt.toNat }) ∨
         (c x = false ∧ (s.ip : Int) + 1 + 2 ≤ wmax ∧ e = { control := .goto (s.ip + 1 + 2) })) := by
  simp only [jumpEffect, bind_eq_ok, readParam_eq_ok]
  have key : ∀ x y, jumpControl (c x) y s = .ok e ↔
      ((c x = true ∧ 0 ≤ y.toInt ∧ e = { control := .goto y.toInt.toNat }) ∨
       (c x = false ∧ (s.ip : Int) + 1 + 2 ≤ wmax ∧ e = { control := .goto (s.ip + 1 + 2) })) := by
    intro x y
    cases hc : c x with
    | true =>
      simp only [jumpControl]
      split
      · simp; omega
      · simp [eq_comm]; omega
    | false =>
      simp only [jumpControl, bind_eq_ok, successor_eq_ok, Except.ok.injEq, and_assoc, exists_and_left,
        exists_eq_left]
      simp [eq_comm]
  simp only [key]
  exact ⟨fun ⟨x, hx, y, hy, h⟩ => ⟨x, y, hx, hy, h⟩, fun ⟨x, y, hx, hy, h⟩ => ⟨x, hx, y, hy, h⟩⟩

theorem jumpEffect_eq_error {c : Word → Bool} {a target : Param} {s : State} {e : Raise} :
    jumpEffect c a target s = .error e ↔
      FirstParamError s 1 [(.read, a), (.read, target)] e ∨
      ∃ x y, ReadsAs s 1 a x ∧ ReadsAs s 2 target y ∧
        ((c x = true ∧ y.toInt < 0 ∧ e = ⟨.addressError, 2, y.toInt⟩) ∨
         (c x = false ∧ wmax < (s.ip : Int) + 1 + 2 ∧ e = ⟨.arithmeticOverflow, 0, (s.ip : Int) + 1 + 2⟩)) := by
  simp only [jumpEffect, bind_eq_error, readParam_eq_ok, readParam_eq_error, FirstParamError, ParamFails,
    ParamResolves, and_false, or_false]
  have key : ∀ x y, jumpControl (c x) y s = .error e ↔
      ((c x = true ∧ y.toInt < 0 ∧ e = ⟨.addressError, 2, y.toInt⟩) ∨
       (c x = false ∧ wmax < (s.ip : Int) + 1 + 2 ∧ e = ⟨.arithmeticOverflow, 0, (s.ip : Int) + 1 + 2⟩)) := by
    intro x y
    cases hc : c x with
    | true =>
      simp only [jumpControl]
      split
      · next h => simp [h, eq_comm]
      · next h => simp; omega
    | false =>
      simp only [jumpControl, bind_eq_error, successor_eq_error, reduceCtorEq, and_false, exists_false, or_false]
      simp
  simp only [key]
  change (ReadFails s 1 a e ∨ _) ↔ ((ReadFails s 1 a e ∨ _) ∨ _)
  constructor
  · rintro (h | ⟨x, hx, h | ⟨y, hy, h⟩⟩)
    · exact .inl (.inl h)
    · exact .inl (.inr ⟨⟨x, hx⟩, h⟩)
    · exact .inr ⟨x, y, hx, hy, h⟩
  · rintro ((h | ⟨⟨x, hx⟩, h⟩) | ⟨x, y, hx, hy, h⟩)
    · exact .inl h
    · exact .inr ⟨x, hx, .inl h⟩
    · exact .inr ⟨x, hx, .inr ⟨y, hy, h⟩⟩

/-! ### The step -/

/-- Everything a step to a next state can be: it starts RUNNING, and takes a decode error, commits an instruction, or takes
the instruction's error. -/
theorem step_eq_next {s t : State} : step s = .next t ↔ s.status.state = .running ∧
    ((decode (fetch s) = .error .invalidOpcode ∧
        t = failedState s ⟨.invalidOpcode, 0, (s.read s.ip).toInt⟩) ∨
     ∃ i, decode (fetch s) = .ok i ∧ exec i s = .next t) := by
  unfold step
  cases hs : s.status.state with
  | loaded => simp
  | halted => simp
  | failed => simp
  | running =>
    cases hd : decode (fetch s) with
    | error r =>
      cases r
      simp only [rejectError, raise_eq_failedState, Host.Outcome.next.injEq, true_and, reduceCtorEq, false_and,
        exists_false, or_false]
      exact eq_comm
    | ok i => simp

/-- One step ends in one of three ways (R97, R98). -/
theorem step_cases {s t : State} (h : step s = .next t) : s.status.state = .running ∧
    ((decode (fetch s) = .error .invalidOpcode ∧
        t = failedState s ⟨.invalidOpcode, 0, (s.read s.ip).toInt⟩) ∨
     (∃ i e, decode (fetch s) = .ok i ∧ effectOf i s = .ok e ∧ t = commit e s) ∨
     (∃ i e, decode (fetch s) = .ok i ∧ effectOf i s = .error e ∧ t = failedState s e)) := by
  obtain ⟨hr, h | ⟨i, hi, h⟩⟩ := step_eq_next.mp h
  · exact ⟨hr, .inl h⟩
  · obtain ⟨e, he, rfl⟩ | ⟨e, he, rfl⟩ := exec_eq_next.mp h
    · exact ⟨hr, .inr (.inl ⟨i, e, hi, he, rfl⟩)⟩
    · exact ⟨hr, .inr (.inr ⟨i, e, hi, he, rfl⟩)⟩

/-! ### Placing one instruction -/

theorem read_placeWord_same {m : Memory} (h : m.wf = true) {a : Nat} (ha : (a : Int) ≤ wmax) (v : Word) :
    (placeWord a v m).read a = v := by
  rw [placeWord, if_pos ha, Memory.read_write_same h]

theorem read_placeWord_other {m : Memory} (h : m.wf = true) {a b : Nat} (hab : b ≠ a) (v : Word) :
    (placeWord a v m).read b = m.read b := by
  unfold placeWord
  split
  · exact Memory.read_write_other h hab v
  · rfl

/-- The words placed are the words read, where all four addresses are words. -/
theorem read_placeWindow {m : Memory} (h : m.wf = true) {a : Nat} (ha : (a : Int) + 3 ≤ wmax) (f : Window) :
    (placeWindow a f m).read a = f.w ∧ (placeWindow a f m).read (a + 1) = f.p1 ∧
    (placeWindow a f m).read (a + 2) = f.p2 ∧ (placeWindow a f m).read (a + 3) = f.p3 := by
  have w1 := placeWord_wf h a f.w
  have w2 := placeWord_wf w1 (a + 1) f.p1
  have w3 := placeWord_wf w2 (a + 2) f.p2
  have h1 : ((a + 1 : Nat) : Int) ≤ wmax := by omega
  have h2 : ((a + 2 : Nat) : Int) ≤ wmax := by omega
  have h3 : ((a + 3 : Nat) : Int) ≤ wmax := by omega
  have h0 : (a : Int) ≤ wmax := by omega
  unfold placeWindow
  refine ⟨?_, ?_, ?_, read_placeWord_same w3 h3 _⟩
  · rw [read_placeWord_other w3 (by omega), read_placeWord_other w2 (by omega), read_placeWord_other w1 (by omega),
      read_placeWord_same h h0]
  · rw [read_placeWord_other w3 (by omega), read_placeWord_other w2 (by omega), read_placeWord_same w1 h1]
  · rw [read_placeWord_other w3 (by omega), read_placeWord_same w2 h2]

/-- The words placed are the words fetched, where addresses below `MEM_LIMIT` hold them. -/
theorem fetch_withFetchWord {s : State} (h : s.mem.wf = true) (hip : (s.ip : Int) + 3 ≤ wmax)
    (hl : s.ip + 3 < s.cfg.memLimit) (nbits w : Nat) : fetch (s.withFetchWord nbits w) = Window.ofBits nbits w := by
  have key : ∀ f : Window, fetch { s with mem := placeWindow s.ip f s.mem } = f := fun f => by
    obtain ⟨h0, h1, h2, h3⟩ := read_placeWindow h hip f
    have l0 : s.ip < s.cfg.memLimit := by omega
    have l1 : s.ip + 1 < s.cfg.memLimit := by omega
    have l2 : s.ip + 2 < s.cfg.memLimit := by omega
    simp only [fetch, State.read, if_pos l0, if_pos l1, if_pos l2, if_pos hl, h0, h1, h2, h3]
  exact key _

end Sys2Proof.Machine
end

