-- ==== Sys2Proof/Laws/Effects.lean ====
section
/-! SUPPORT. What the effect of an instruction can hold, part by part, and what its error can be. -/

namespace Sys2Proof.Machine

/-- The memory write of an effect: through the instruction's write target, where it has one. -/
theorem effectOf_store {i : Instr} {s : State} {e : Effect} (h : effectOf i s = .ok e) :
    match storeParam i with
    | none => e.store = none
    | some (k, p) => ∃ d r, TargetIs s k p d ∧ e.store = some (d, r) := by
  cases i with
  | add a b dst => obtain ⟨x, y, d, r, -, -, hd, -, -, rfl⟩ := threeParams_eq_ok.mp h; exact ⟨d, r, hd, rfl⟩
  | mul a b dst => obtain ⟨x, y, d, r, -, -, hd, -, -, rfl⟩ := threeParams_eq_ok.mp h; exact ⟨d, r, hd, rfl⟩
  | lt a b dst => obtain ⟨x, y, d, r, -, -, hd, -, -, rfl⟩ := threeParams_eq_ok.mp h; exact ⟨d, r, hd, rfl⟩
  | eq a b dst => obtain ⟨x, y, d, r, -, -, hd, -, -, rfl⟩ := threeParams_eq_ok.mp h; exact ⟨d, r, hd, rfl⟩
  | inp dst => obtain ⟨d, v, q, hd, -, -, rfl⟩ := inputEffect_eq_ok.mp h; exact ⟨d, v, hd, rfl⟩
  | out a => obtain ⟨x, -, -, rfl⟩ := outputEffect_eq_ok.mp h; rfl
  | jt a t => obtain ⟨x, y, -, -, ⟨-, -, rfl⟩ | ⟨-, -, rfl⟩⟩ := jumpEffect_eq_ok.mp h <;> rfl
  | jf a t => obtain ⟨x, y, -, -, ⟨-, -, rfl⟩ | ⟨-, -, rfl⟩⟩ := jumpEffect_eq_ok.mp h <;> rfl
  | arb a => obtain ⟨x, -, -, -, rfl⟩ := baseEffect_eq_ok.mp h; rfl
  | hlt => cases h; rfl

/-- The I/O sequencer update of an effect. -/
theorem effectOf_io {i : Instr} {s : State} {e : Effect} (h : effectOf i s = .ok e) :
    (e.io = .none ∧ (∀ dst, i ≠ .inp dst) ∧ ∀ a, i ≠ .out a) ∨
    (∃ dst d v q, i = .inp dst ∧ TargetIs s 1 dst d ∧ s.input = v :: q ∧ e.io = .pop ∧ e.store = some (d, v)) ∨
    (∃ a x, i = .out a ∧ ReadsAs s 1 a x ∧ e.io = .push x) := by
  cases i with
  | add a b dst =>
    obtain ⟨x, y, d, r, -, -, -, -, -, rfl⟩ := threeParams_eq_ok.mp h; exact .inl ⟨rfl, nofun, nofun⟩
  | mul a b dst =>
    obtain ⟨x, y, d, r, -, -, -, -, -, rfl⟩ := threeParams_eq_ok.mp h; exact .inl ⟨rfl, nofun, nofun⟩
  | lt a b dst =>
    obtain ⟨x, y, d, r, -, -, -, -, -, rfl⟩ := threeParams_eq_ok.mp h; exact .inl ⟨rfl, nofun, nofun⟩
  | eq a b dst =>
    obtain ⟨x, y, d, r, -, -, -, -, -, rfl⟩ := threeParams_eq_ok.mp h; exact .inl ⟨rfl, nofun, nofun⟩
  | inp dst =>
    obtain ⟨d, v, q, hd, hq, -, rfl⟩ := inputEffect_eq_ok.mp h
    exact .inr (.inl ⟨dst, d, v, q, rfl, hd, hq, rfl, rfl⟩)
  | out a => obtain ⟨x, hx, -, rfl⟩ := outputEffect_eq_ok.mp h; exact .inr (.inr ⟨a, x, rfl, hx, rfl⟩)
  | jt a t =>
    obtain ⟨x, y, -, -, ⟨-, -, rfl⟩ | ⟨-, -, rfl⟩⟩ := jumpEffect_eq_ok.mp h <;> exact .inl ⟨rfl, nofun, nofun⟩
  | jf a t =>
    obtain ⟨x, y, -, -, ⟨-, -, rfl⟩ | ⟨-, -, rfl⟩⟩ := jumpEffect_eq_ok.mp h <;> exact .inl ⟨rfl, nofun, nofun⟩
  | arb a => obtain ⟨x, -, -, -, rfl⟩ := baseEffect_eq_ok.mp h; exact .inl ⟨rfl, nofun, nofun⟩
  | hlt => cases h; exact .inl ⟨rfl, nofun, nofun⟩

/-- The relative-base write of an effect: `arb` alone has one. -/
theorem effectOf_base {i : Instr} {s : State} {e : Effect} (h : effectOf i s = .ok e) :
    e.base = none ∨ ∃ a, i = .arb a := by
  cases i with
  | add a b dst => obtain ⟨x, y, d, r, -, -, -, -, -, rfl⟩ := threeParams_eq_ok.mp h; exact .inl rfl
  | mul a b dst => obtain ⟨x, y, d, r, -, -, -, -, -, rfl⟩ := threeParams_eq_ok.mp h; exact .inl rfl
  | lt a b dst => obtain ⟨x, y, d, r, -, -, -, -, -, rfl⟩ := threeParams_eq_ok.mp h; exact .inl rfl
  | eq a b dst => obtain ⟨x, y, d, r, -, -, -, -, -, rfl⟩ := threeParams_eq_ok.mp h; exact .inl rfl
  | inp dst => obtain ⟨d, v, q, -, -, -, rfl⟩ := inputEffect_eq_ok.mp h; exact .inl rfl
  | out a => obtain ⟨x, -, -, rfl⟩ := outputEffect_eq_ok.mp h; exact .inl rfl
  | jt a t => obtain ⟨x, y, -, -, ⟨-, -, rfl⟩ | ⟨-, -, rfl⟩⟩ := jumpEffect_eq_ok.mp h <;> exact .inl rfl
  | jf a t => obtain ⟨x, y, -, -, ⟨-, -, rfl⟩ | ⟨-, -, rfl⟩⟩ := jumpEffect_eq_ok.mp h <;> exact .inl rfl
  | arb a => exact .inr ⟨a, rfl⟩
  | hlt => cases h; exact .inl rfl

/-- The last write of an effect: a halt for `hlt` alone, an address that a word can hold otherwise. -/
theorem effectOf_control {i : Instr} {s : State} {e : Effect} (h : effectOf i s = .ok e) :
    (i = .hlt ∧ e.control = .halt) ∨ (i ≠ .hlt ∧ ∃ n : Nat, e.control = .goto n ∧ (n : Int) ≤ wmax) := by
  have word : ∀ y : Word, 0 ≤ y.toInt → ((y.toInt.toNat : Nat) : Int) ≤ wmax := fun y hy => by
    have := (inRange_toInt y).2
    omega
  cases i with
  | add a b dst =>
    obtain ⟨x, y, d, r, -, -, -, -, hn, rfl⟩ := threeParams_eq_ok.mp h
    exact .inr ⟨nofun, _, rfl, by omega⟩
  | mul a b dst =>
    obtain ⟨x, y, d, r, -, -, -, -, hn, rfl⟩ := threeParams_eq_ok.mp h
    exact .inr ⟨nofun, _, rfl, by omega⟩
  | lt a b dst =>
    obtain ⟨x, y, d, r, -, -, -, -, hn, rfl⟩ := threeParams_eq_ok.mp h
    exact .inr ⟨nofun, _, rfl, by omega⟩
  | eq a b dst =>
    obtain ⟨x, y, d, r, -, -, -, -, hn, rfl⟩ := threeParams_eq_ok.mp h
    exact .inr ⟨nofun, _, rfl, by omega⟩
  | inp dst => obtain ⟨d, v, q, -, -, hn, rfl⟩ := inputEffect_eq_ok.mp h; exact .inr ⟨nofun, _, rfl, by omega⟩
  | out a => obtain ⟨x, -, hn, rfl⟩ := outputEffect_eq_ok.mp h; exact .inr ⟨nofun, _, rfl, by omega⟩
  | jt a t =>
    obtain ⟨x, y, -, -, ⟨-, hy, rfl⟩ | ⟨-, hn, rfl⟩⟩ := jumpEffect_eq_ok.mp h
    · exact .inr ⟨nofun, _, rfl, word y hy⟩
    · exact .inr ⟨nofun, _, rfl, by omega⟩
  | jf a t =>
    obtain ⟨x, y, -, -, ⟨-, hy, rfl⟩ | ⟨-, hn, rfl⟩⟩ := jumpEffect_eq_ok.mp h
    · exact .inr ⟨nofun, _, rfl, word y hy⟩
    · exact .inr ⟨nofun, _, rfl, by omega⟩
  | arb a => obtain ⟨x, -, -, hn, rfl⟩ := baseEffect_eq_ok.mp h; exact .inr ⟨nofun, _, rfl, by omega⟩
  | hlt => cases h; exact .inl ⟨rfl, rfl⟩

/-! ### Errors -/

theorem not_inRange_of_lt {v : Int} (h : wmax < v) : ¬ InRange v := fun hr => by have := hr.2; omega

/-- What the error of parameter `i` can be (R181). -/
def ParamRecord (s : State) (i : Fin 4) (p : Param) (e : Raise) : Prop :=
  e.param = i ∧
  ((e.error = .invalidOperand ∧ e.value = p.mode.digit ∧ e.value ≠ 0 ∧ e.value ≠ 2) ∨
   (e.error = .addressError ∧ e.value < 0) ∨
   (e.error = .arithmeticOverflow ∧ ¬ InRange e.value) ∨
   (e.error = .capacityExceeded ∧ (s.cfg.memLimit : Int) ≤ e.value ∧ InRange e.value))

theorem readFails_record {s : State} {i : Fin 4} {p : Param} {e : Raise} (h : ReadFails s i p e) :
    ParamRecord s i p e := by
  obtain ⟨m, w⟩ := p
  cases m with
  | position =>
    rcases h with ⟨h, rfl⟩ | ⟨-, h, rfl⟩
    · exact ⟨rfl, .inr (.inr (.inl ⟨rfl, not_inRange_of_lt h⟩))⟩
    · exact ⟨rfl, .inr (.inl ⟨rfl, h⟩)⟩
  | immediate => obtain ⟨h, rfl⟩ := h; exact ⟨rfl, .inr (.inr (.inl ⟨rfl, not_inRange_of_lt h⟩))⟩
  | relative =>
    rcases h with ⟨h, rfl⟩ | ⟨-, h, rfl⟩ | ⟨-, -, h, rfl⟩
    · exact ⟨rfl, .inr (.inr (.inl ⟨rfl, not_inRange_of_lt h⟩))⟩
    · exact ⟨rfl, .inr (.inr (.inl ⟨rfl, h⟩))⟩
    · exact ⟨rfl, .inr (.inl ⟨rfl, h⟩)⟩
  | unassigned k =>
    obtain rfl : e = _ := h
    exact ⟨rfl, .inl ⟨rfl, by simp [Mode.digit], by simp only; omega, by simp only; omega⟩⟩

theorem targetFails_record {s : State} {i : Fin 4} {p : Param} {e : Raise} (h : TargetFails s i p e) :
    ParamRecord s i p e := by
  obtain ⟨m, w⟩ := p
  cases m with
  | position =>
    rcases h with ⟨h, rfl⟩ | ⟨-, h, rfl⟩ | ⟨-, -, h, rfl⟩
    · exact ⟨rfl, .inr (.inr (.inl ⟨rfl, not_inRange_of_lt h⟩))⟩
    · exact ⟨rfl, .inr (.inl ⟨rfl, h⟩)⟩
    · exact ⟨rfl, .inr (.inr (.inr ⟨rfl, h, inRange_toInt w⟩))⟩
  | immediate =>
    obtain rfl : e = _ := h
    exact ⟨rfl, .inl ⟨rfl, rfl, by simp only; omega, by simp only; omega⟩⟩
  | relative =>
    rcases h with ⟨h, rfl⟩ | ⟨-, h, rfl⟩ | ⟨-, -, h, rfl⟩ | ⟨-, hr, -, h, rfl⟩
    · exact ⟨rfl, .inr (.inr (.inl ⟨rfl, not_inRange_of_lt h⟩))⟩
    · exact ⟨rfl, .inr (.inr (.inl ⟨rfl, h⟩))⟩
    · exact ⟨rfl, .inr (.inl ⟨rfl, h⟩)⟩
    · exact ⟨rfl, .inr (.inr (.inr ⟨rfl, h, hr⟩))⟩
  | unassigned k =>
    obtain rfl : e = _ := h
    exact ⟨rfl, .inl ⟨rfl, by simp [Mode.digit], by simp only; omega, by simp only; omega⟩⟩

theorem paramFails_record {s : State} {i : Fin 4} {q : Access × Param} {e : Raise} (h : ParamFails s i q e) :
    ParamRecord s i q.2 e := by
  obtain ⟨x, p⟩ := q
  cases x with
  | read => exact readFails_record h
  | write => exact targetFails_record h

/-- The first parameter error is the error of one of the parameters. -/
theorem firstParamError_record {s : State} {e : Raise} : ∀ {qs : List (Access × Param)} {n : Nat},
    FirstParamError s n qs e → ∃ j q, qs[j]? = some q ∧ ParamRecord s (Fin.ofNat 4 (n + j)) q.2 e
  | [], _, h => h.elim
  | q :: qs, n, h => by
    rcases h with h | ⟨-, h⟩
    · exact ⟨0, q, rfl, paramFails_record h⟩
    · obtain ⟨j, q', hq, hr⟩ := firstParamError_record h
      exact ⟨j + 1, q', by simpa using hq, by rwa [show n + (j + 1) = n + 1 + j by omega]⟩

/-- The error of an instruction: a parameter's, or one of the execute part (R182, items 2 and 3). -/
theorem effectOf_error {i : Instr} {s : State} {e : Raise} (h : effectOf i s = .error e) :
    FirstParamError s 1 i.params e ∨
    (e.error = .inputExhausted ∧ e.param = 1 ∧ e.value = 0 ∧ s.input = []) ∨
    (e.error = .arithmeticOverflow ∧ ¬ InRange e.value) ∨
    (e.error = .addressError ∧ e.param = 2 ∧ e.value < 0) := by
  have three : ∀ (f : Word → Word → Int) (a b dst : Param),
      threeParams (fun x y => checkedWord (f x y)) a b dst s = .error e →
      FirstParamError s 1 [(.read, a), (.read, b), (.write, dst)] e ∨
        (e.error = .arithmeticOverflow ∧ ¬ InRange e.value) := by
    intro f a b dst h
    rcases threeParams_eq_error.mp h with h | ⟨x, y, d, -, -, -, h | ⟨r, -, hv, rfl⟩⟩
    · exact .inl h
    · obtain ⟨hr, rfl⟩ := checkedWord_eq_error.mp h
      exact .inr ⟨rfl, hr⟩
    · exact .inr ⟨rfl, not_inRange_of_lt hv⟩
  have pure3 : ∀ (f : Word → Word → Word) (a b dst : Param),
      threeParams (fun x y => .ok (f x y)) a b dst s = .error e →
      FirstParamError s 1 [(.read, a), (.read, b), (.write, dst)] e ∨
        (e.error = .arithmeticOverflow ∧ ¬ InRange e.value) := by
    intro f a b dst h
    rcases threeParams_eq_error.mp h with h | ⟨x, y, d, -, -, -, h | ⟨r, -, hv, rfl⟩⟩
    · exact .inl h
    · cases h
    · exact .inr ⟨rfl, not_inRange_of_lt hv⟩
  have jump : ∀ (c : Word → Bool) (a t : Param), jumpEffect c a t s = .error e →
      FirstParamError s 1 [(.read, a), (.read, t)] e ∨ (e.error = .arithmeticOverflow ∧ ¬ InRange e.value) ∨
        (e.error = .addressError ∧ e.param = 2 ∧ e.value < 0) := by
    intro c a t h
    rcases jumpEffect_eq_error.mp h with h | ⟨x, y, -, -, ⟨-, hv, rfl⟩ | ⟨-, hv, rfl⟩⟩
    · exact .inl h
    · exact .inr (.inr ⟨rfl, rfl, hv⟩)
    · exact .inr (.inl ⟨rfl, not_inRange_of_lt hv⟩)
  cases i with
  | add a b dst => exact (three _ a b dst h).imp_right fun h => .inr (.inl h)
  | mul a b dst => exact (three _ a b dst h).imp_right fun h => .inr (.inl h)
  | lt a b dst => exact (pure3 _ a b dst h).imp_right fun h => .inr (.inl h)
  | eq a b dst => exact (pure3 _ a b dst h).imp_right fun h => .inr (.inl h)
  | jt a t => exact (jump _ a t h).imp_right .inr
  | jf a t => exact (jump _ a t h).imp_right .inr
  | inp dst =>
    rcases inputEffect_eq_error.mp h with h | ⟨-, hq, rfl⟩ | ⟨-, -, hv, rfl⟩
    · exact .inl (.inl h)
    · exact .inr (.inl ⟨rfl, rfl, rfl, hq⟩)
    · exact .inr (.inr (.inl ⟨rfl, not_inRange_of_lt hv⟩))
  | out a =>
    rcases outputEffect_eq_error.mp h with h | ⟨-, hv, rfl⟩
    · exact .inl (.inl h)
    · exact .inr (.inr (.inl ⟨rfl, not_inRange_of_lt hv⟩))
  | arb a =>
    rcases baseEffect_eq_error.mp h with h | ⟨x, -, ⟨hv, rfl⟩ | ⟨-, hv, rfl⟩⟩
    · exact .inl (.inl h)
    · exact .inr (.inr (.inl ⟨rfl, hv⟩))
    · exact .inr (.inr (.inl ⟨rfl, not_inRange_of_lt hv⟩))
  | hlt => cases h

end Sys2Proof.Machine
end

