-- ==== Sys2Proof/Tests/Slice0.lean ====
section
/-! SUPPORT. The model's own tests. Expected values are the spec's (95_test_vectors.md, 30_encoding.md), not the model's.
The second half shows, for every statement with hypotheses, states and operands that meet them, clause by clause. -/

namespace Sys2Proof.Tests

open Sys2Proof.Machine

/-! ### Helpers -/

abbrev pos (v : Int) : Param := ⟨.position, Word.ofInt v⟩
abbrev imm (v : Int) : Param := ⟨.immediate, Word.ofInt v⟩
abbrev rel (v : Int) : Param := ⟨.relative, Word.ofInt v⟩
/-- A parameter with mode digit `k + 3`. -/
abbrev bad (k : Fin 7) : Param := ⟨.unassigned k, 0⟩

/-- A RUNNING state with the image at address 0 and `rb = 0`. -/
def running (image : List Int) (inputs : List Int := []) (cfg : Config := Config.default) : State :=
  { loadedState cfg (image.map Word.ofInt) with
    input := inputs.map Word.ofInt, status := ⟨.running, none, 0, 0, 0, 0⟩ }

/-- A RUNNING state with an empty memory and the given `ip` and `rb`. -/
def atIp (ip : Nat) (rb : Int := 0) (inputs : List Int := []) : State :=
  { running [] inputs with ip := ip, rb := Word.ofInt rb }

/-- Whether an outcome is a next state with the property `p`. -/
def isNext (o : Host.Outcome State Fault Refusal) (p : State → Bool) : Bool :=
  match o with
  | .next t => p t
  | .fault _ => false
  | .refused _ => false

/-- Whether a state is FAILED with this record. -/
def failedWith (e : Error) (ip : Nat) (param : Fin 4) (value : Int) (t : State) : Bool :=
  decide (t.status.state = .failed) && decide (t.status.cause = some e) && decide (t.status.faultIp = ip) &&
    decide (t.status.faultParam = param) && decide (t.status.faultValue = value)

/-- Whether a state is RUNNING with this `ip`. -/
def runningAt (ip : Nat) (t : State) : Bool := decide (t.status.state = .running) && decide (t.ip = ip)

/-- Whether a cell holds an integer. -/
def holds (a : Nat) (v : Int) (t : State) : Bool := decide ((t.mem.read a).toInt = v)

/-! ### WellFormed refuses the ill-formed (R67, R72) -/

theorem test_wf_accepts : (Instr.add (pos 0) (imm 1) (rel 2)).wf = true ∧ (Instr.inp (pos 0)).wf = true ∧
    (Instr.out (imm 0)).wf = true ∧ (Instr.jt (rel 0) (imm 1)).wf = true ∧ Instr.hlt.wf = true := by decide
theorem test_wf_refuses_immediate_target : (Instr.add (pos 0) (imm 1) (imm 2)).wf = false ∧
    (Instr.mul (pos 0) (imm 1) (imm 2)).wf = false ∧ (Instr.lt (pos 0) (imm 1) (imm 2)).wf = false ∧
    (Instr.eq (pos 0) (imm 1) (imm 2)).wf = false ∧ (Instr.inp (imm 0)).wf = false := by decide
theorem test_wf_refuses_unassigned_target : (Instr.add (pos 0) (imm 1) (bad 0)).wf = false ∧
    (Instr.mul (pos 0) (imm 1) (bad 1)).wf = false ∧ (Instr.lt (pos 0) (imm 1) (bad 2)).wf = false ∧
    (Instr.eq (pos 0) (imm 1) (bad 6)).wf = false ∧ (Instr.inp (bad 3)).wf = false := by decide
theorem test_wf_refuses_unassigned_first : (Instr.add (bad 0) (imm 1) (pos 2)).wf = false ∧
    (Instr.mul (bad 1) (imm 1) (pos 2)).wf = false ∧ (Instr.lt (bad 2) (imm 1) (pos 2)).wf = false ∧
    (Instr.eq (bad 3) (imm 1) (pos 2)).wf = false ∧ (Instr.out (bad 4)).wf = false ∧
    (Instr.jt (bad 5) (imm 1)).wf = false ∧ (Instr.jf (bad 6) (imm 1)).wf = false ∧ (Instr.arb (bad 0)).wf = false := by
  decide
theorem test_wf_refuses_unassigned_second : (Instr.add (imm 1) (bad 0) (pos 2)).wf = false ∧
    (Instr.mul (imm 1) (bad 0) (pos 2)).wf = false ∧ (Instr.lt (imm 1) (bad 0) (pos 2)).wf = false ∧
    (Instr.eq (imm 1) (bad 0) (pos 2)).wf = false ∧ (Instr.jt (imm 1) (bad 0)).wf = false ∧
    (Instr.jf (imm 1) (bad 0)).wf = false := by decide

/-! ### Decoding: words written out from R62 to R70 -/

/-- `add`: opcode 1, modes 0, 0, 0. -/
theorem test_decode_add : decode ⟨1, 9, 10, 3⟩ = .ok (.add (pos 9) (pos 10) (pos 3)) := by decide
/-- `mul`: 1002 has modes 0, 1, 0 (section 2.1). -/
theorem test_decode_mul : decode ⟨1002, 4, 3, 4⟩ = .ok (.mul (pos 4) (imm 3) (pos 4)) := by decide
/-- `in`: 203 has mode 2. -/
theorem test_decode_in : decode ⟨203, 7, 8, 9⟩ = .ok (.inp (rel 7)) := by decide
/-- `out`: 204 has mode 2 (section 2.1). -/
theorem test_decode_out : decode ⟨204, Word.ofInt (-1), 8, 9⟩ = .ok (.out (rel (-1))) := by decide
/-- `jt`: 1105 has modes 1, 1. -/
theorem test_decode_jt : decode ⟨1105, 1, 7, 9⟩ = .ok (.jt (imm 1) (imm 7)) := by decide
/-- `jf`: 1006 has modes 0, 1. -/
theorem test_decode_jf : decode ⟨1006, 50, 12, 9⟩ = .ok (.jf (pos 50) (imm 12)) := by decide
/-- `lt`: 21107 has modes 1, 1, 2 (section 2.1). -/
theorem test_decode_lt : decode ⟨21107, 7, 8, 20⟩ = .ok (.lt (imm 7) (imm 8) (rel 20)) := by decide
/-- `eq`: 108 has modes 1, 0, 0. -/
theorem test_decode_eq : decode ⟨108, 8, 11, 13⟩ = .ok (.eq (imm 8) (pos 11) (pos 13)) := by decide
/-- `arb`: 109 has mode 1. -/
theorem test_decode_arb : decode ⟨109, Word.ofInt (-5), 0, 0⟩ = .ok (.arb (imm (-5))) := by decide
/-- `hlt`: 99, 1099 and 199, digits ignored (section 2.1). -/
theorem test_decode_hlt : decode ⟨99, 1, 2, 3⟩ = .ok .hlt ∧ decode ⟨1099, 1, 2, 3⟩ = .ok .hlt ∧
    decode ⟨199, 1, 2, 3⟩ = .ok .hlt := by decide
/-- 10104 is `out` of an immediate: digit 4 is ignored (section 2.1). -/
theorem test_decode_ignores_digits : decode ⟨10104, 5, 99, 0⟩ = .ok (.out (imm 5)) := by decide
/-- The illegal words of section 2.1. -/
theorem test_decode_refuses : decode ⟨0, 1, 2, 3⟩ = .error .invalidOpcode ∧
    decode ⟨10, 1, 2, 3⟩ = .error .invalidOpcode ∧ decode ⟨12345, 1, 2, 3⟩ = .error .invalidOpcode ∧
    decode ⟨Word.ofInt (-1), 1, 2, 3⟩ = .error .invalidOpcode ∧
    decode ⟨Word.ofInt wmin, 1, 2, 3⟩ = .error .invalidOpcode := by decide
/-- 301 and 30001 decode with an unassigned mode digit, 11101 with an immediate target; none is well formed. -/
theorem test_decode_illegal_modes :
    decode ⟨301, 0, 0, 0⟩ = .ok (.add (bad 0) (pos 0) (pos 0)) ∧
    decode ⟨30001, 0, 0, 0⟩ = .ok (.add (pos 0) (pos 0) (bad 0)) ∧
    decode ⟨11101, 1, 1, 5⟩ = .ok (.add (imm 1) (imm 1) (imm 5)) := by decide
/-- R75: the shortest form. -/
theorem test_encode : encode (.lt (imm 7) (imm 8) (rel 20)) = [21107, 7, 8, 20] ∧
    encode (.out (rel (-1))) = [204, Word.ofInt (-1)] ∧ encode (.jf (pos 50) (imm 12)) = [1006, 50, 12] ∧
    encode .hlt = [99] := by decide
/-- The second word lies in bits 127 to 64, the third in bits 191 to 128. -/
theorem test_table_words : decodeTableWord 64 99 = some .hlt ∧
    decodeTableWord 128 (7 * 2 ^ 64 + 104) = some (.out (imm 7)) ∧
    decodeTableWord 192 (9 * 2 ^ 128 + 8 * 2 ^ 64 + 1105) = some (.jt (imm 8) (imm 9)) ∧
    decodeTableWord 64 0 = none := by decide
theorem test_withFetchWord_runs_next :
    isNext (step (State.reset.withFetchWord 128 (7 * 2 ^ 64 + 104)))
      (fun t => runningAt 2 t && decide (t.output = [7])) = true := by decide

/-! ### One step of each instruction (95_test_vectors.md, sections 1 and 2) -/

theorem test_add_V1 : isNext (step (running [1, 9, 10, 3, 2, 3, 11, 0, 99, 30, 40, 50]))
    (fun t => runningAt 4 t && holds 3 70 t && holds 0 1 t) = true := by decide
theorem test_add_overflows : isNext (step (running [1101, 9223372036854775807, 1, 5, 99]))
    (fun t => failedWith .arithmeticOverflow 0 0 9223372036854775808 t && decide (t.mem.extent = 5)) = true := by decide
theorem test_mul_reaches_wmin : isNext (step (running [1102, -4294967296, 2147483648, 5, 99]))
    (fun t => runningAt 4 t && holds 5 (-9223372036854775808) t) = true := by decide
theorem test_mul_overflows : isNext (step (running [1102, -1, -9223372036854775808, 5, 99]))
    (fun t => failedWith .arithmeticOverflow 0 0 9223372036854775808 t) = true := by decide
theorem test_in_own_parameter_word : isNext (step (running [3, 1, 99] [42]))
    (fun t => runningAt 2 t && holds 1 42 t && decide (t.input = [])) = true := by decide
theorem test_in_checks_target_first : isNext (step (running [203, -1, 99] [5]))
    (fun t => failedWith .addressError 0 1 (-1) t && decide (t.input = [5])) = true := by decide
theorem test_out_wmin : isNext (step (running [104, -9223372036854775808, 99]))
    (fun t => runningAt 2 t && decide (t.output = [Word.ofInt wmin])) = true := by decide
theorem test_out_beyond_extent : isNext (step (running [4, 1000, 99]))
    (fun t => runningAt 2 t && decide (t.output = [0]) && decide (t.mem.extent = 3)) = true := by decide
theorem test_jt_negative_condition : isNext (step (running [1105, -5, 7, 104, 1, 99])) (runningAt 7) = true := by decide
theorem test_jt_target_resolved_when_not_taken : isNext (step (running [105, 0, -1, 99]))
    (failedWith .addressError 0 2 (-1)) = true := by decide
theorem test_jf_not_taken : isNext (step (running [1106, 5, 7, 104])) (runningAt 3) = true := by decide
theorem test_jf_negative_target : isNext (step (running [1106, 0, -5])) (failedWith .addressError 0 2 (-5)) = true := by
  decide
theorem test_lt_is_signed : isNext (step (running [1107, -9223372036854775808, 9223372036854775807, 20, 99]))
    (fun t => holds 20 1 t && decide (t.mem.extent = 21)) = true := by decide
theorem test_lt_over_its_own_word : isNext (step (running [7, 0, 0, 0, 99]))
    (fun t => runningAt 4 t && holds 0 0 t) = true := by decide
theorem test_eq_true : isNext (step (running [1108, 0, 0, 20, 99])) (holds 20 1) = true := by decide
theorem test_eq_false : isNext (step (running [1108, -1, 1, 20, 99])) (holds 20 0) = true := by decide
theorem test_arb_reads_with_old_base : isNext (step (running [209, 0, 99]))
    (fun t => runningAt 2 t && decide (t.rb.toInt = 209)) = true := by decide
theorem test_arb_overflows : isNext (step { running [1, 1, 109, 1, 99] with ip := 2, rb := Word.ofInt wmax })
    (fun t => failedWith .arithmeticOverflow 2 0 9223372036854775808 t && decide (t.rb.toInt = wmax)) = true := by decide
theorem test_hlt_keeps_ip : isNext (step (running [1099]))
    (fun t => decide (t = { running [1099] with status := ⟨.halted, none, 0, 0, 0, 0⟩ })) = true := by decide

/-! ### Errors and memory -/

theorem test_negative_word : isNext (step (running [-1])) (failedWith .invalidOpcode 0 0 (-1)) = true := by decide
theorem test_fetch_beyond_extent : isNext (step { running [2, 0, 0, 0] with ip := 4 })
    (failedWith .invalidOpcode 4 0 0) = true := by decide
theorem test_immediate_target : isNext (step (running [11101, 1, 1, 5, 99]))
    (failedWith .invalidOperand 0 3 1) = true := by decide
theorem test_mode_three : isNext (step (running [301, 0, 0, 0, 99])) (failedWith .invalidOperand 0 1 3) = true := by decide
theorem test_relative_target : isNext (step (running [21101, 1, 1, -1, 99]))
    (failedWith .addressError 0 3 (-1)) = true := by decide
theorem test_write_far_beyond : isNext (step (running [1101, 5, 6, 1000, 99]))
    (fun t => decide (t.mem.extent = 1001) && holds 1000 11 t && holds 999 0 t) = true := by decide
theorem test_limit_reached : isNext (step (running [1101, 1, 1, 10, 99] [] ⟨10⟩))
    (failedWith .capacityExceeded 0 3 10) = true := by decide
theorem test_limit_not_reached : isNext (step (running [1101, 1, 1, 9, 99] [] ⟨10⟩))
    (fun t => runningAt 4 t && holds 9 2 t && decide (t.mem.extent = 10)) = true := by decide
theorem test_writing_zero_unlists : ((Memory.ofImage [5, 0, 7]).write 2 0).cells = [(0, 5)] := by decide

/-- R187: an operand read at `MEM_LIMIT` is 0, in the cells of a longer image too, and so is the instruction word. -/
theorem test_limit_reads_zero : isNext (step (running [4, 2, 77] [] ⟨2⟩)) (fun t => decide (t.output = [0])) = true ∧
    isNext (step { running [4, 2, 104, 5] [] ⟨2⟩ with ip := 2 }) (failedWith .invalidOpcode 2 0 0) = true ∧
    (running [4, 2, 77] [] ⟨2⟩).read 1 = 2 := by decide
/-- R104, with the model's names (log 4), and R166 (log 10). -/
theorem test_no_step : step State.reset = .fault .notStarted ∧
    step ((running [99]).setRunState .halted) = .fault .alreadyHalted ∧
    step ((running [99]).setRunState .failed) = .fault .alreadyFailed ∧
    start [] (running [99]) = .refused (.runNotAccepted .running) := ⟨rfl, rfl, rfl, rfl⟩

/-! ### Loader (section 2.8), assembler (R76) -/

theorem test_parse : parseImage ['1', ',', '2'] = some [1, 2] ∧
    parseImage [' ', '1', ',', '2', '\n'] = some [1, 2] ∧
    parseImage ['0', '0', '7', ',', '-', '0'] = some [7, 0] := by decide
theorem test_parse_wmin :
    parseImage ['-', '9', '2', '2', '3', '3', '7', '2', '0', '3', '6', '8', '5', '4', '7', '7', '5', '8', '0', '8'] =
      some [Word.ofInt wmin] := by decide
theorem test_parse_refuses : parseImage [] = none ∧ parseImage ['+', '1'] = none ∧
    parseImage ['1', ',', ' ', '2'] = none ∧ parseImage ['1', ',', ',', '2'] = none ∧
    parseImage ['1', ',', '2', ','] = none ∧ parseImage ['1', ' ', '2'] = none ∧ parseImage ['1', ';', '2'] = none ∧
    parseImage ['9', '2', '2', '3', '3', '7', '2', '0', '3', '6', '8', '5', '4', '7', '7', '5', '8', '0', '8'] = none := by
  decide
/-- Program P1. -/
theorem test_assemble_P1 :
    assemble [.instr (.inp (.cell (.num 100))), .label "loop", .instr (.out (.cell (.num 100))),
      .instr (.add (.cell (.num 100)) (.literal (.num (-1))) (.cell (.num 100))),
      .instr (.jt (.cell (.num 100)) (.literal (.label "loop"))), .instr .hlt] =
    some [3, 100, 4, 100, 1001, 100, Word.ofInt (-1), 100, 1005, 100, 2, 99] := by decide
theorem test_run_result : (match run 9 [] (loadedState Config.default [104, 7, 99]) with
    | .next r => decide (r = .returned [7])
    | .fault _ => false
    | .refused _ => false) = true := by decide

/-! ### Witnesses: states and operands that meet the hypotheses of the statements -/

theorem exists_of_isNext {o : Host.Outcome State Fault Refusal} {p : State → Bool} (h : isNext o p = true) :
    ∃ t, o = .next t ∧ p t = true := by
  cases o with
  | next t => exact ⟨t, rfl, h⟩
  | fault r => cases h
  | refused r => cases h

/-- The largest non-negative word, 9223372036854775807, is an `lt` with modes 8, 5, 7; 1002 is a `mul`. -/
theorem witness_DecodeReadsTheDecimalFields :
    decode ⟨Word.ofInt wmax, 1, 2, 3⟩ = .ok (.lt ⟨.unassigned 5, 1⟩ ⟨.unassigned 2, 2⟩ ⟨.unassigned 4, 3⟩) ∧
    decode ⟨1002, 4, 3, 4⟩ = .ok (.mul (pos 4) (imm 3) (pos 4)) := by decide

/-- The word may be the largest with these five digits. -/
theorem witness_HigherDigitsAreIgnored :
    decode ⟨1002, 4, 3, 4⟩ = .ok (.mul (pos 4) (imm 3) (pos 4)) ∧ (0 : Int) ≤ (9223372036854701002 : Word).toInt ∧
    (9223372036854701002 : Word).toInt % 10 ^ 5 = (1002 : Word).toInt % 10 ^ 5 := by decide

/-- A negative word, an opcode outside the table at each end, and the extent at `ip`. -/
theorem witness_IllegalWordsRaiseInvalidOpcode :
    ((running [-1]).status.state = .running ∧ ((running [-1]).read 0).toInt < 0) ∧
    ((running [0]).status.state = .running ∧ ((running [0]).read 0).toInt % 100 ∉ [1, 2, 3, 4, 5, 6, 7, 8, 9, 99]) ∧
    ((running [98]).read 0).toInt % 100 ∉ [1, 2, 3, 4, 5, 6, 7, 8, 9, 99] ∧
    ((running [10]).read 0).toInt % 100 ∉ [1, 2, 3, 4, 5, 6, 7, 8, 9, 99] ∧
    ((running []).status.state = .running ∧ (running []).mem.extent ≤ (running []).ip) := by decide

theorem witness_StepRunsTheDecodedInstruction :
    (running [104, 7, 99]).status.state = .running ∧ decode (fetch (running [104, 7, 99])) = .ok (.out (imm 7)) ∧
    (running [301, 0, 0, 0]).status.state = .running ∧
    decode (fetch (running [301, 0, 0, 0])) = .ok (.add (bad 0) (pos 0) (pos 0)) := by decide

theorem witness_StepExistsExactlyWhileRunning :
    (running [99]).status.state = .running ∧ State.reset.status.state = .loaded ∧
    (State.reset.setRunState .halted).status.state = .halted ∧
    (State.reset.setRunState .failed).status.state = .failed := by decide

/-! The states below have `ip` at the two values where a clause changes: `wmax - k`, whose successor is the last address,
and `wmax - k + 1`, whose successor is none. -/

abbrev last (k : Nat) : Nat := 9223372036854775807 - k

/-- An error of the first, the second and the third parameter; the encoding with ignored digits. -/
theorem witness_AddFollowsItsRule_errors :
    FirstParamError (atIp 0) 1 (Instr.add (bad 0) (imm 1) (pos 0)).params ⟨.invalidOperand, 1, 3⟩ ∧
    FirstParamError (atIp 0) 1 (Instr.add (imm 1) (pos (-1)) (pos 0)).params ⟨.addressError, 2, -1⟩ ∧
    FirstParamError (atIp 0) 1 (Instr.add (imm 1) (imm 1) (imm 0)).params ⟨.invalidOperand, 3, 1⟩ ∧
    FirstParamError (atIp (last 0)) 1 (Instr.add (imm 1) (imm 1) (pos 0)).params
      ⟨.arithmeticOverflow, 1, 9223372036854775808⟩ ∧
    (910001 : Word).toInt = ((1 : Nat) : Int) + 100 * (pos 4).mode.digit + 1000 * (pos 4).mode.digit +
      10000 * (imm 4).mode.digit + 100000 * ((9 : Nat) : Int) := by
  refine ⟨.inl rfl, .inr ⟨⟨1, by decide, by decide⟩, .inl (.inr ⟨by decide, by decide, by decide⟩)⟩,
    .inr ⟨⟨1, by decide, by decide⟩, .inr ⟨⟨1, by decide, by decide⟩, .inl rfl⟩⟩,
    .inl ⟨by decide, by decide⟩, by decide⟩

/-- Results at both ends of the word range, and the successor at the last address and one beyond. -/
theorem witness_AddFollowsItsRule_results :
    (atIp (last 4)).mem.wf = true ∧ ReadsAs (atIp (last 4)) 1 (imm wmax) (Word.ofInt wmax) ∧
    ReadsAs (atIp (last 4)) 2 (imm 0) 0 ∧ TargetIs (atIp (last 4)) 3 (pos wmax) 9223372036854775807 ∧
    InRange ((Word.ofInt wmax).toInt + (0 : Word).toInt) ∧ ((atIp (last 4)).ip : Int) + 4 ≤ wmax ∧
    ReadsAs (atIp (last 3)) 1 (imm wmin) (Word.ofInt wmin) ∧ ReadsAs (atIp (last 3)) 2 (imm 0) 0 ∧
    TargetIs (atIp (last 3)) 3 (pos 0) 0 ∧ InRange ((Word.ofInt wmin).toInt + (0 : Word).toInt) ∧
    wmax < ((atIp (last 3)).ip : Int) + 4 :=
  ⟨by decide, ⟨by decide, by decide⟩, ⟨by decide, by decide⟩, ⟨by decide, by decide, by decide⟩, by decide, by decide,
    ⟨by decide, by decide⟩, ⟨by decide, by decide⟩, ⟨by decide, by decide, by decide⟩, by decide, by decide⟩

theorem witness_AddFollowsItsRule_overflow :
    ReadsAs (atIp 0) 1 (imm wmax) (Word.ofInt wmax) ∧ ReadsAs (atIp 0) 2 (imm 1) 1 ∧ TargetIs (atIp 0) 3 (pos 0) 0 ∧
    ¬ InRange ((Word.ofInt wmax).toInt + (1 : Word).toInt) :=
  ⟨⟨by decide, by decide⟩, ⟨by decide, by decide⟩, ⟨by decide, by decide, by decide⟩, by decide⟩

/-- Relative operands, with the base at both ends of its range. -/
theorem witness_relative_operands :
    ReadsAs { running [5, 6] with rb := Word.ofInt wmax } 1 (rel (-9223372036854775806)) 6 ∧
    TargetIs (atIp 0 wmax) 1 (rel 0) 9223372036854775807 ∧
    ReadFails (atIp 0 wmax) 1 (rel 1) ⟨.arithmeticOverflow, 1, 9223372036854775808⟩ ∧
    ReadFails (atIp 0 wmin) 1 (rel 0) ⟨.addressError, 1, -9223372036854775808⟩ ∧
    TargetFails (running [] [] ⟨10⟩) 1 (pos 10) ⟨.capacityExceeded, 1, 10⟩ ∧
    TargetFails { running [] [] ⟨10⟩ with rb := 4 } 1 (rel 6) ⟨.capacityExceeded, 1, 10⟩ :=
  ⟨⟨by decide, by decide, by decide, by decide⟩, ⟨by decide, by decide, by decide, by decide⟩,
    .inr (.inl ⟨by decide, by decide, by decide⟩), .inr (.inr ⟨by decide, by decide, by decide, by decide⟩),
    .inr (.inr ⟨by decide, by decide, by decide, by decide⟩),
    .inr (.inr (.inr ⟨by decide, by decide, by decide, by decide, by decide⟩))⟩

theorem witness_MulFollowsItsRule :
    FirstParamError (atIp 0) 1 (Instr.mul (bad 6) (imm 1) (pos 0)).params ⟨.invalidOperand, 1, 9⟩ ∧
    ((atIp (last 4)).mem.wf = true ∧ ReadsAs (atIp (last 4)) 1 (imm wmin) (Word.ofInt wmin) ∧
      ReadsAs (atIp (last 4)) 2 (imm 1) 1 ∧ TargetIs (atIp (last 4)) 3 (pos 0) 0 ∧
      InRange ((Word.ofInt wmin).toInt * (1 : Word).toInt) ∧ ((atIp (last 4)).ip : Int) + 4 ≤ wmax) ∧
    (ReadsAs (atIp (last 3)) 1 (imm 0) 0 ∧ ReadsAs (atIp (last 3)) 2 (imm wmin) (Word.ofInt wmin) ∧
      TargetIs (atIp (last 3)) 3 (pos 0) 0 ∧ InRange ((0 : Word).toInt * (Word.ofInt wmin).toInt) ∧
      wmax < ((atIp (last 3)).ip : Int) + 4) ∧
    (ReadsAs (atIp 0) 1 (imm (-1)) (Word.ofInt (-1)) ∧ ReadsAs (atIp 0) 2 (imm wmin) (Word.ofInt wmin) ∧
      TargetIs (atIp 0) 3 (pos 0) 0 ∧ ¬ InRange ((Word.ofInt (-1)).toInt * (Word.ofInt wmin).toInt)) :=
  ⟨.inl rfl,
    ⟨by decide, ⟨by decide, by decide⟩, ⟨by decide, by decide⟩, ⟨by decide, by decide, by decide⟩, by decide, by decide⟩,
    ⟨⟨by decide, by decide⟩, ⟨by decide, by decide⟩, ⟨by decide, by decide, by decide⟩, by decide, by decide⟩,
    ⟨⟨by decide, by decide⟩, ⟨by decide, by decide⟩, ⟨by decide, by decide, by decide⟩, by decide⟩⟩

theorem witness_LtFollowsItsRule :
    FirstParamError (atIp 0) 1 (Instr.lt (bad 0) (imm 1) (pos 0)).params ⟨.invalidOperand, 1, 3⟩ ∧
    ((atIp (last 4)).mem.wf = true ∧ ReadsAs (atIp (last 4)) 1 (imm wmin) (Word.ofInt wmin) ∧
      ReadsAs (atIp (last 4)) 2 (imm wmax) (Word.ofInt wmax) ∧ TargetIs (atIp (last 4)) 3 (pos 0) 0 ∧
      ((atIp (last 4)).ip : Int) + 4 ≤ wmax) ∧
    (ReadsAs (atIp (last 3)) 1 (imm 0) 0 ∧ ReadsAs (atIp (last 3)) 2 (imm 0) 0 ∧
      TargetIs (atIp (last 3)) 3 (pos 0) 0 ∧ wmax < ((atIp (last 3)).ip : Int) + 4) ∧
    InRange (if (Word.ofInt wmin).toInt < (Word.ofInt wmax).toInt then 1 else 0) ∧
    InRange (if (0 : Word).toInt < (0 : Word).toInt then 1 else 0) :=
  ⟨.inl rfl,
    ⟨by decide, ⟨by decide, by decide⟩, ⟨by decide, by decide⟩, ⟨by decide, by decide, by decide⟩, by decide⟩,
    ⟨⟨by decide, by decide⟩, ⟨by decide, by decide⟩, ⟨by decide, by decide, by decide⟩, by decide⟩, by decide, by decide⟩

theorem witness_EqFollowsItsRule :
    FirstParamError (atIp 0) 1 (Instr.eq (bad 0) (imm 1) (pos 0)).params ⟨.invalidOperand, 1, 3⟩ ∧
    ((atIp (last 4)).mem.wf = true ∧ ReadsAs (atIp (last 4)) 1 (imm wmin) (Word.ofInt wmin) ∧
      ReadsAs (atIp (last 4)) 2 (imm wmin) (Word.ofInt wmin) ∧ TargetIs (atIp (last 4)) 3 (pos 0) 0 ∧
      ((atIp (last 4)).ip : Int) + 4 ≤ wmax) ∧
    (ReadsAs (atIp (last 3)) 1 (imm 0) 0 ∧ ReadsAs (atIp (last 3)) 2 (imm 1) 1 ∧
      TargetIs (atIp (last 3)) 3 (pos 0) 0 ∧ wmax < ((atIp (last 3)).ip : Int) + 4) ∧
    InRange (if (Word.ofInt wmin).toInt = (Word.ofInt wmin).toInt then 1 else 0) ∧
    InRange (if (0 : Word).toInt = (1 : Word).toInt then 1 else 0) :=
  ⟨.inl rfl,
    ⟨by decide, ⟨by decide, by decide⟩, ⟨by decide, by decide⟩, ⟨by decide, by decide, by decide⟩, by decide⟩,
    ⟨⟨by decide, by decide⟩, ⟨by decide, by decide⟩, ⟨by decide, by decide, by decide⟩, by decide⟩, by decide, by decide⟩

theorem witness_InFollowsItsRule :
    FirstParamError (atIp 0) 1 (Instr.inp (imm 0)).params ⟨.invalidOperand, 1, 1⟩ ∧
    ((atIp 0).mem.wf = true ∧ TargetIs (atIp 0) 1 (pos 0) 0 ∧ (atIp 0).input = []) ∧
    (TargetIs (atIp (last 1) 0 [7]) 1 (pos 0) 0 ∧ (atIp (last 1) 0 [7]).input = [7] ∧
      wmax < ((atIp (last 1) 0 [7]).ip : Int) + 2) ∧
    (TargetIs (atIp (last 2) 0 [7]) 1 (pos 0) 0 ∧ (atIp (last 2) 0 [7]).mem.wf = true ∧
      (atIp (last 2) 0 [7]).input = [7] ∧ ((atIp (last 2) 0 [7]).ip : Int) + 2 ≤ wmax) :=
  ⟨.inl rfl, ⟨by decide, ⟨by decide, by decide, by decide⟩, by decide⟩,
    ⟨⟨by decide, by decide, by decide⟩, by decide, by decide⟩,
    ⟨⟨by decide, by decide, by decide⟩, by decide, by decide, by decide⟩⟩

theorem witness_OutFollowsItsRule :
    FirstParamError (atIp 0) 1 (Instr.out (bad 0)).params ⟨.invalidOperand, 1, 3⟩ ∧
    (ReadsAs (atIp (last 1)) 1 (pos 0) 0 ∧ wmax < ((atIp (last 1)).ip : Int) + 2) ∧
    (ReadsAs (atIp (last 2)) 1 (pos wmax) 0 ∧ ((atIp (last 2)).ip : Int) + 2 ≤ wmax) :=
  ⟨.inl rfl, ⟨⟨by decide, by decide, by decide⟩, by decide⟩, ⟨⟨by decide, by decide, by decide⟩, by decide⟩⟩

/-- Each of the four clauses of a jump, for `jt`. -/
theorem witness_JtFollowsItsRule :
    FirstParamError (atIp 0) 1 (Instr.jt (imm 0) (pos (-1))).params ⟨.addressError, 2, -1⟩ ∧
    (ReadsAs (atIp 0) 1 (imm (-1)) (Word.ofInt (-1)) ∧ ReadsAs (atIp 0) 2 (imm (-1)) (Word.ofInt (-1)) ∧
      (Word.ofInt (-1)).toInt ≠ 0 ∧ (Word.ofInt (-1)).toInt < 0) ∧
    (ReadsAs (atIp (last 2)) 1 (imm 1) 1 ∧ ReadsAs (atIp (last 2)) 2 (imm 0) 0 ∧ (1 : Word).toInt ≠ 0 ∧
      0 ≤ (0 : Word).toInt) ∧
    (ReadsAs (atIp (last 2)) 1 (imm 0) 0 ∧ ¬ (0 : Word).toInt ≠ 0 ∧ wmax < ((atIp (last 2)).ip : Int) + 3) ∧
    (ReadsAs (atIp (last 3)) 1 (imm 0) 0 ∧ ReadsAs (atIp (last 3)) 2 (imm (-1)) (Word.ofInt (-1)) ∧
      ((atIp (last 3)).ip : Int) + 3 ≤ wmax) :=
  ⟨.inr ⟨⟨0, by decide, by decide⟩, .inl (.inr ⟨by decide, by decide, by decide⟩)⟩,
    ⟨⟨by decide, by decide⟩, ⟨by decide, by decide⟩, by decide, by decide⟩,
    ⟨⟨by decide, by decide⟩, ⟨by decide, by decide⟩, by decide, by decide⟩,
    ⟨⟨by decide, by decide⟩, by decide, by decide⟩,
    ⟨⟨by decide, by decide⟩, ⟨by decide, by decide⟩, by decide⟩⟩

theorem witness_JfFollowsItsRule :
    FirstParamError (atIp 0) 1 (Instr.jf (bad 0) (pos 0)).params ⟨.invalidOperand, 1, 3⟩ ∧
    (ReadsAs (atIp 0) 1 (imm 0) 0 ∧ ReadsAs (atIp 0) 2 (imm (-1)) (Word.ofInt (-1)) ∧ (0 : Word).toInt = 0 ∧
      (Word.ofInt (-1)).toInt < 0) ∧
    (ReadsAs (atIp (last 2)) 1 (imm 0) 0 ∧ ReadsAs (atIp (last 2)) 2 (imm wmax) (Word.ofInt wmax) ∧
      0 ≤ (Word.ofInt wmax).toInt) ∧
    (ReadsAs (atIp (last 2)) 1 (imm 1) 1 ∧ ReadsAs (atIp (last 2)) 2 (imm 0) 0 ∧ ¬ (1 : Word).toInt = 0 ∧
      wmax < ((atIp (last 2)).ip : Int) + 3) ∧
    (ReadsAs (atIp (last 3)) 1 (imm 1) 1 ∧ ReadsAs (atIp (last 3)) 2 (imm 0) 0 ∧
      ((atIp (last 3)).ip : Int) + 3 ≤ wmax) :=
  ⟨.inl rfl, ⟨⟨by decide, by decide⟩, ⟨by decide, by decide⟩, by decide, by decide⟩,
    ⟨⟨by decide, by decide⟩, ⟨by decide, by decide⟩, by decide⟩,
    ⟨⟨by decide, by decide⟩, ⟨by decide, by decide⟩, by decide, by decide⟩,
    ⟨⟨by decide, by decide⟩, ⟨by decide, by decide⟩, by decide⟩⟩

theorem witness_ArbFollowsItsRule :
    FirstParamError (atIp 0) 1 (Instr.arb (bad 0)).params ⟨.invalidOperand, 1, 3⟩ ∧
    (ReadsAs (atIp 0 wmax) 1 (imm 1) 1 ∧ ¬ InRange ((atIp 0 wmax).rb.toInt + (1 : Word).toInt)) ∧
    (ReadsAs (atIp (last 1) wmax) 1 (imm 0) 0 ∧ InRange ((atIp (last 1) wmax).rb.toInt + (0 : Word).toInt) ∧
      wmax < ((atIp (last 1) wmax).ip : Int) + 2) ∧
    (ReadsAs (atIp (last 2) wmin) 1 (imm 0) 0 ∧ InRange ((atIp (last 2) wmin).rb.toInt + (0 : Word).toInt) ∧
      ((atIp (last 2) wmin).ip : Int) + 2 ≤ wmax) :=
  ⟨.inl rfl, ⟨⟨by decide, by decide⟩, by decide⟩, ⟨⟨by decide, by decide⟩, by decide, by decide⟩,
    ⟨⟨by decide, by decide⟩, by decide, by decide⟩⟩

/-- The largest word that ends in 99 halts. -/
theorem witness_HltFollowsItsRule : decode ⟨9223372036854775799, 1, 2, 3⟩ = .ok .hlt ∧
    (9223372036854775799 : Word).toInt % 100 = 99 ∧ isNext (exec .hlt (atIp (last 0))) (fun _ => true) = true := by decide

theorem witness_ErrorsArePrecise :
    ∃ t, step (running [3, 0, 99]) = .next t ∧ failedWith .inputExhausted 0 1 0 t = true :=
  exists_of_isNext (by decide)

/-- One witness for each cause. -/
theorem witness_FaultRecordFitsItsCause :
    (∃ t, step (running [-1]) = .next t ∧ failedWith .invalidOpcode 0 0 (-1) t = true) ∧
    (∃ t, step (running [11101, 1, 1, 5]) = .next t ∧ failedWith .invalidOperand 0 3 1 t = true) ∧
    (∃ t, step (running [4, -1]) = .next t ∧ failedWith .addressError 0 1 (-1) t = true) ∧
    (∃ t, step (running [3, 0]) = .next t ∧ failedWith .inputExhausted 0 1 0 t = true) ∧
    (∃ t, step (running [1101, 9223372036854775807, 1, 5]) = .next t ∧
      failedWith .arithmeticOverflow 0 0 9223372036854775808 t = true) ∧
    (∃ t, step (running [1101, 1, 1, 10] [] ⟨10⟩) = .next t ∧ failedWith .capacityExceeded 0 3 10 t = true) :=
  ⟨exists_of_isNext (by decide), exists_of_isNext (by decide), exists_of_isNext (by decide),
    exists_of_isNext (by decide), exists_of_isNext (by decide), exists_of_isNext (by decide)⟩

theorem witness_OnlyOpcode99Halts :
    (∃ t, step (running [199]) = .next t ∧ decide (t.status.state = .halted) = true) ∧
    (∃ t, step (running [104, 99]) = .next t ∧ decide (t.status.state = .running) = true) :=
  ⟨exists_of_isNext (by decide), exists_of_isNext (by decide)⟩

theorem witness_IllFormedInstructionsExactlyFail :
    (running []).status.state = .running ∧ (running []).status.cause = none ∧
    (∃ t, exec (.inp (imm 0)) (running []) = .next t ∧ (Instr.inp (imm 0)).wf = false) ∧
    (∃ t, exec (.inp (pos 0)) (running []) = .next t ∧ (Instr.inp (pos 0)).wf = true) :=
  ⟨by decide, by decide, ⟨_, rfl, by decide⟩, ⟨_, rfl, by decide⟩⟩

/-- A store to the last address of all, under the default limit. -/
theorem witness_DefaultLimitNeverExceeded :
    (running [1101, 1, 1, 9223372036854775807]).status.cause = none ∧
    wmax < ((running [1101, 1, 1, 9223372036854775807]).cfg.memLimit : Int) ∧
    ∃ t, step (running [1101, 1, 1, 9223372036854775807]) = .next t ∧ runningAt 4 t = true :=
  ⟨by decide, by decide, exists_of_isNext (by decide)⟩

theorem witness_IpAdvancesByTheTable :
    (∃ t, step (running [0]) = .next t ∧ failedWith .invalidOpcode 0 0 0 t = true) ∧
    (running [1, 2, 3, 4]).status.state = .running ∧
    (∃ t, exec (.jt (pos 1) (pos 2)) (running [1, 2, 3, 4]) = .next t ∧ runningAt 3 t = true) ∧
    (∃ t, exec (.jf (imm 0) (imm 0)) (running [1, 2, 3, 4]) = .next t ∧ runningAt 0 t = true) ∧
    (∃ t, exec (.eq (pos 1) (pos 2) (pos 3)) (running [1, 2, 3, 4]) = .next t ∧ runningAt 4 t = true) ∧
    (∃ t, exec (.inp (pos 1)) (running [1, 2, 3, 4]) = .next t ∧ failedWith .inputExhausted 0 1 0 t = true) :=
  ⟨exists_of_isNext (by decide), by decide, exists_of_isNext (by decide), exists_of_isNext (by decide),
    exists_of_isNext (by decide), exists_of_isNext (by decide)⟩

theorem witness_OnlyArbChangesTheBase :
    ∃ t, step (running [109, -5]) = .next t ∧ decide (t.rb ≠ (running [109, -5]).rb) = true :=
  exists_of_isNext (by decide)

theorem witness_OutputOnlyGrowsByOut :
    (∃ t, step (running [104, 7]) = .next t ∧ decide (t.output = [7]) = true) ∧
    (∃ t, step (running [109, 7]) = .next t ∧ decide (t.output = []) = true) ∧
    ((running [99]).setRunState .halted).status.state = .halted :=
  ⟨exists_of_isNext (by decide), exists_of_isNext (by decide), by decide⟩

theorem witness_InputIsConsumedInOrder :
    (∃ t, start [1, 2] State.reset = .next t) ∧ (running [3, 0] [7, 8]).mem.wf = true ∧
    (∃ t, step (running [3, 0] [7, 8]) = .next t ∧ decide (t.input = [8]) = true) :=
  ⟨⟨_, rfl⟩, by decide, exists_of_isNext (by decide)⟩

theorem witness_MemoryGrowsMonotonically :
    (running [1101, 5, 6, 1000]).mem.wf = true ∧
    (∃ t, step (running [1101, 5, 6, 1000]) = .next t ∧ decide (t.mem.extent = 1001) = true) ∧
    NextStoresTo (running [1101, 5, 6, 1000]) 1000 :=
  ⟨by decide, exists_of_isNext (by decide),
    ⟨.add (imm 5) (imm 6) (pos 1000), 3, pos 1000, by decide, by decide, ⟨by decide, by decide, by decide⟩⟩⟩

/-- A store, and a storing instruction whose target does not resolve. -/
theorem witness_FrameOfTheStoringInstructions :
    (atIp 0).mem.wf = true ∧
    (storeParam (.add (imm 1) (imm 2) (rel 9)) = some (3, rel 9) ∧ writeParam (atIp 0) 3 (rel 9) = .ok 9 ∧
      ∃ t, exec (.add (imm 1) (imm 2) (rel 9)) (atIp 0) = .next t ∧ holds 9 3 t = true) ∧
    (storeParam (.inp (imm 0)) = some (1, imm 0) ∧
      writeParam (atIp 0) 1 (imm 0) = .error ⟨.invalidOperand, 1, 1⟩ ∧
      ∃ t, exec (.inp (imm 0)) (atIp 0) = .next t ∧ failedWith .invalidOperand 0 1 1 t = true) :=
  ⟨by decide, ⟨by decide, by decide, exists_of_isNext (by decide)⟩,
    ⟨by decide, by decide, exists_of_isNext (by decide)⟩⟩

theorem witness_FrameOfTheOtherInstructions :
    storeParam (.arb (imm 5)) = none ∧
    (∃ t, exec (.arb (imm 5)) (atIp 0) = .next t ∧ decide (t.rb = 5) = true) ∧ storeParam .hlt = none ∧
    (∃ t, exec .hlt (atIp 0) = .next t ∧ decide (t.status.state = .halted) = true) :=
  ⟨by decide, exists_of_isNext (by decide), by decide, exists_of_isNext (by decide)⟩

/-- The last address of all, by an `add`, a `mul`, an `lt`, an `eq`, and an `in`. -/
theorem witness_NextFetchSeesTheStore :
    ((atIp (last 4)).mem.wf = true ∧ ((atIp (last 4)).ip : Int) + (4 : Nat) ≤ wmax ∧
      TargetIs (atIp (last 4)) 3 (pos wmax) ((atIp (last 4)).ip + 4) ∧
      (storeParam (.add (imm 99) (imm 0) (pos wmax)) = some (3, pos wmax) ∧
        StoresValue (atIp (last 4)) 99 (.add (imm 99) (imm 0) (pos wmax)) ∧ InRange 99) ∧
      StoresValue (atIp (last 4)) 99 (.mul (imm 99) (imm 1) (pos wmax)) ∧
      StoresValue (atIp (last 4)) 1 (.lt (imm 99) (imm 100) (pos wmax)) ∧
      StoresValue (atIp (last 4)) 0 (.eq (imm 99) (imm 0) (pos wmax))) ∧
    ((atIp (last 2) 0 [99]).mem.wf = true ∧ storeParam (.inp (pos wmax)) = some (1, pos wmax) ∧
      TargetIs (atIp (last 2) 0 [99]) 1 (pos wmax) ((atIp (last 2) 0 [99]).ip + 2) ∧
      StoresValue (atIp (last 2) 0 [99]) 99 (.inp (pos wmax)) ∧
      ((atIp (last 2) 0 [99]).ip : Int) + (2 : Nat) ≤ wmax) :=
  ⟨⟨by decide, by decide, ⟨by decide, by decide, by decide⟩,
      ⟨by decide, ⟨99, 0, ⟨by decide, by decide⟩, ⟨by decide, by decide⟩, by decide⟩, by decide⟩,
      ⟨99, 1, ⟨by decide, by decide⟩, ⟨by decide, by decide⟩, by decide⟩,
      ⟨99, 100, ⟨by decide, by decide⟩, ⟨by decide, by decide⟩, by decide⟩,
      ⟨99, 0, ⟨by decide, by decide⟩, ⟨by decide, by decide⟩, by decide⟩⟩,
    ⟨by decide, by decide, ⟨by decide, by decide, by decide⟩, ⟨99, [], by decide, by decide⟩, by decide⟩⟩

/-- The empty memory of extent 0 and the memory of one zero. -/
theorem witness_TheExtentIsUnobservable :
    (running []).mem.wf = true ∧ (running [0]).mem.wf = true ∧ SameButExtent (running []) (running [0]) ∧
    running [] ≠ running [0] ∧
    ∃ t, step (running []) = .next t ∧ failedWith .invalidOpcode 0 0 0 t = true := by
  refine ⟨by decide, by decide, ⟨by decide, by decide, by decide, by decide, by decide, by decide, fun a => ?_⟩,
    by decide, exists_of_isNext (by decide)⟩
  simp [running, loadedState, Memory.ofImage, imageCells, consCell, State.read, Memory.read, lookupCell]

/-- Each clause at the edge of its range: -1, the extent, `MEM_LIMIT` inside an image, the last address below both. -/
theorem witness_MemReadFollowsItsRule :
    ((-1 : Int) < 0) ∧ ((0 : Int) ≤ 3 ∧ ((running [4, 5, 6]).mem.extent : Int) ≤ 3) ∧
    ((0 : Int) ≤ 2 ∧ ((running [4, 5, 6] [] ⟨2⟩).cfg.memLimit : Int) ≤ 2) ∧
    ((0 : Int) ≤ 1 ∧ (1 : Int) < (running [4, 5, 6] [] ⟨2⟩).mem.extent ∧
      (1 : Int) < (running [4, 5, 6] [] ⟨2⟩).cfg.memLimit) ∧
    (((atIp (last 3)).ip : Int) + (3 : Fin 4).val ≤ wmax ∧ (pos wmax).mode = .position ∧ (rel wmin).mode = .relative ∧
      InRange (relativeSum (atIp (last 3)) (rel wmin))) := by decide

theorem witness_MemWriteFollowsItsRule :
    ((-1 : Int) < 0) ∧ ((0 : Int) ≤ 10 ∧ ((running [] [] ⟨10⟩).cfg.memLimit : Int) ≤ 10) ∧
    ((0 : Int) ≤ 9 ∧ (9 : Int) < (running [] [] ⟨10⟩).cfg.memLimit) ∧ (Memory.ofImage [4, 5, 6]).wf = true ∧
    (2 < (Memory.ofImage [4, 5, 6]).extent ∧ 2 ≠ 3) ∧ ((Memory.ofImage [4, 5, 6]).extent ≤ 3 ∧ 3 < 4) ∧
    (((atIp (last 3)).ip : Int) + (3 : Fin 4).val ≤ wmax ∧ (pos wmax).mode = .position ∧ (rel wmin).mode = .relative ∧
      InRange (relativeSum (atIp (last 3)) (rel wmin))) := by decide

theorem witness_CanonicalMemoriesWithEqualReadsAreEqual :
    (Memory.ofImage [4, 0]).wf = true ∧ ((Memory.ofImage [4, 5]).write 1 0).wf = true ∧
    (Memory.ofImage [4, 0]).extent = ((Memory.ofImage [4, 5]).write 1 0).extent ∧
    ∀ a, (Memory.ofImage [4, 0]).read a = ((Memory.ofImage [4, 5]).write 1 0).read a :=
  ⟨by decide, by decide, by decide, fun _ => rfl⟩

/-- A RUNNING state that meets the invariant, and has a step. -/
theorem witness_EveryStepKeepsTheInvariant :
    (running [104, 7, 99]).Inv ∧ ∃ t, step (running [104, 7, 99]) = .next t ∧ runningAt 2 t = true :=
  ⟨⟨by decide, by decide, by decide, by decide, by decide, by decide, by decide, by decide, by decide⟩,
    exists_of_isNext (by decide)⟩

theorem witness_LoadAndStartMeetTheInvariant :
    ((['9', '9'] : List Char).length : Int) ≤ wmax ∧
    load Config.default ['9', '9'] = .ok (loadedState Config.default [99]) ∧
    (loadedState Config.default [99]).Inv ∧ ∃ t, start [1] (loadedState Config.default [99]) = .next t :=
  ⟨by decide, rfl,
    ⟨by decide, by decide, by decide, by decide, by decide, by decide, by decide, by decide, by decide⟩, ⟨_, rfl⟩⟩

/-- The text ` 7,-0` and a newline is a program text. -/
theorem witness_LoadedInstanceHasItsResetValues :
    IsProgramText [' ', '7', ',', '-', '0', '\n'] [⟨false, [7]⟩, ⟨true, [0]⟩] := by
  refine ⟨by decide, ?_, [' '], ['\n'], by simp, by simp, by decide⟩
  intro t ht
  simp only [List.mem_cons, List.not_mem_nil, or_false] at ht
  rcases ht with rfl | rfl <;> exact ⟨by decide, by decide⟩

/-- The empty text is no program text, and ` 7,-0` is one. -/
theorem witness_LoaderAcceptsExactlyTheGrammar :
    (∃ tokens, IsProgramText [' ', '7', ',', '-', '0', '\n'] tokens) ∧ ¬ ∃ tokens, IsProgramText [] tokens := by
  refine ⟨⟨_, witness_LoadedInstanceHasItsResetValues⟩, ?_⟩
  rintro ⟨tokens, hne, hl, pre, post, -, -, h⟩
  have h' : tokensText tokens = [] := by
    have := h.symm
    simp only [List.append_eq_nil_iff] at this
    exact this.1.2
  match tokens, hne, hl, h' with
  | [t], _, hl, h' =>
    have := (hl t (by simp)).1
    simp [tokensText, Token.text, this] at h'
  | _ :: _ :: _, _, _, h' => simp [tokensText] at h'

theorem witness_RunIsAcceptedOnlyOnce :
    State.reset.status.state = .loaded ∧ (running []).status.state ≠ .loaded ∧
    (State.reset.setRunState .halted).status.state ≠ .loaded := by decide

theorem witness_RunsContinueUntilTheyEnd :
    runResult (runFor 1 (running [99])) ≠ .notEnded ∧ runResult (runFor 1 (running [-1])) ≠ .notEnded := by decide

theorem witness_DebugViewShowsEndedRuns :
    ((running [99]).setRunState .halted).status.state = .halted ∧
    ((running [99]).setRunState .failed).status.state = .failed ∧ (running [99]).status.state = .running ∧
    State.reset.status.state = .loaded ∧ 0 < ((running [99]).setRunState .halted).mem.extent := by decide

/-- Both modes, at the limit itself, and the default limit with a target that fails otherwise. -/
theorem witness_CapacityBoundsWritesAndNotReads :
    ({ running [104, 5] [] ⟨1⟩ with ip := 1 } : State).cfg.memLimit ≤ ({ running [104, 5] [] ⟨1⟩ with ip := 1 } : State).ip ∧
    (((running [] [] ⟨10⟩).ip : Int) + (3 : Fin 4).val ≤ wmax ∧ (pos 10).mode = .position ∧
      ((running [] [] ⟨10⟩).cfg.memLimit : Int) ≤ (pos 10).word.toInt) ∧
    ((rel 10).mode = .relative ∧ InRange (relativeSum (running [] [] ⟨10⟩) (rel 10)) ∧
      ((running [] [] ⟨10⟩).cfg.memLimit : Int) ≤ relativeSum (running [] [] ⟨10⟩) (rel 10)) ∧
    (running []).cfg = Config.default ∧ writeParam (running []) 3 (pos (-1)) = .error ⟨.addressError, 3, -1⟩ := by decide

theorem witness_PseudoInstructionsExpandAsGiven :
    ((atIp (last 2)).ip : Int) + 2 ≤ wmax ∧
    (ReadsAs (atIp (last 2)) 2 (imm 0) 0 ∧ 0 ≤ (0 : Word).toInt) ∧
    ((atIp (last 4)).mem.wf = true ∧ ReadsAs (atIp (last 4)) 1 (imm wmax) (Word.ofInt wmax) ∧
      TargetIs (atIp (last 4)) 3 (pos 0) 0 ∧ ((atIp (last 4)).ip : Int) + 4 ≤ wmax ∧
      (Word.ofInt wmax).toInt ≠ wmin) ∧
    (ReadsAs (atIp (last 4)) 1 (imm wmin) (Word.ofInt wmin) ∧ (Word.ofInt wmin).toInt = wmin) :=
  ⟨by decide, ⟨⟨by decide, by decide⟩, by decide⟩,
    ⟨by decide, ⟨by decide, by decide⟩, ⟨by decide, by decide, by decide⟩, by decide, by decide⟩,
    ⟨⟨by decide, by decide⟩, by decide⟩⟩

end Sys2Proof.Tests
end

section
/-! SUPPORT. The state's invariant, and what a step does to each piece of the state (10_state.md): `ip`, `rb`, the two
sequences, and the extent, which no program observes. -/

namespace Sys2Proof.Machine

/-! ### Words and errors that a step can meet -/

/-- R95: a write target is an address that a word can hold. -/
theorem TargetIs.le_wmax {s : State} {k : Fin 4} {p : Param} {d : Nat} (h : TargetIs s k p d) : (d : Int) ≤ wmax := by
  obtain ⟨m, w⟩ := p
  obtain ⟨-, -, h⟩ := h
  cases m with
  | position => exact (h : w.toInt = d) ▸ (inRange_toInt w).2
  | immediate => exact h.elim
  | relative => exact h.2 ▸ h.1.2
  | unassigned k => exact h.elim

/-- An instruction stores only to addresses that a word can hold. -/
theorem effectOf_store_le_wmax {i : Instr} {s : State} {e : Effect} {d : Nat} {r : Word} (h : effectOf i s = .ok e)
    (he : e.store = some (d, r)) : (d : Int) ≤ wmax := by
  have hs := effectOf_store h
  cases hp : storeParam i with
  | none => simp [hp, he] at hs
  | some kp =>
    simp only [hp, he, Option.some.injEq, Prod.mk.injEq] at hs
    obtain ⟨_, _, ht, rfl, -⟩ := hs
    exact ht.le_wmax

/-- R180: code 1 is no error of a parameter. -/
theorem ParamRecord.ne_programFormatError {s : State} {k : Fin 4} {p : Param} {e : Raise} (h : ParamRecord s k p e) :
    e.error ≠ .programFormatError := by
  obtain ⟨-, ⟨h, -⟩ | ⟨h, -⟩ | ⟨h, -⟩ | ⟨h, -⟩⟩ := h <;> simp [h]

/-- R180: code 1 is no error of an instruction. -/
theorem effectOf_error_ne_programFormatError {i : Instr} {s : State} {e : Raise} (h : effectOf i s = .error e) :
    e.error ≠ .programFormatError := by
  obtain hp | ⟨h, -⟩ | ⟨h, -⟩ | ⟨h, -⟩ := effectOf_error h
  · obtain ⟨_, _, -, hr⟩ := firstParamError_record hp
    exact hr.ne_programFormatError
  all_goals simp [h]

/-! ### The invariant (R20, R24, R29, R40, R151, R183) -/

theorem commit_mem_wf {s : State} (h : s.mem.wf = true) (e : Effect) : (commit e s).mem.wf = true := by
  rw [commit_mem]
  split
  · exact h
  · exact Memory.write_wf h _ _

/-- A step keeps the canonical form. -/
theorem step_mem_wf {s t : State} (h : s.mem.wf = true) (hst : step s = .next t) : t.mem.wf = true := by
  obtain ⟨-, ⟨-, rfl⟩ | ⟨_, e, -, -, rfl⟩ | ⟨_, _, -, -, rfl⟩⟩ := step_cases hst
  · exact h
  · exact commit_mem_wf h e
  · exact h

theorem commit_extent_le {i : Instr} {s : State} {e : Effect} (h : (s.mem.extent : Int) ≤ wmax + 1)
    (he : effectOf i s = .ok e) : ((commit e s).mem.extent : Int) ≤ wmax + 1 := by
  rw [commit_mem]
  split
  · exact h
  · next d r hd =>
    have := effectOf_store_le_wmax he hd
    rw [Memory.write_extent]
    omega

/-- R183: taking an error other than code 1 keeps the invariant. -/
theorem failedState_inv {s : State} {e : Raise} (h : s.Inv) (he : e.error ≠ .programFormatError) :
    (failedState s e).Inv where
  memory := h.memory
  extent := h.extent
  ip := h.ip
  cause := by simp [failedState]
  runtime := by simpa [failedState] using he
  clear := fun hn => (hn rfl).elim
  failed := fun _ => ⟨rfl, rfl⟩
  halted := nofun
  loaded := nofun

/-- R151: a halt at a `hlt` keeps the invariant. -/
theorem setRunState_halted_inv {s : State} (h : s.Inv) (hr : s.status.state = .running)
    (hd : decode (fetch s) = .ok .hlt) : (s.setRunState .halted).Inv where
  memory := h.memory
  extent := h.extent
  ip := h.ip
  cause := by simp [h.cause, hr]
  runtime := h.runtime
  clear := fun _ => h.clear (by simp [hr])
  failed := nofun
  halted := fun _ => hd
  loaded := nofun

/-- R97: in RUNNING, new contents of the memory and of the registers and sequences keep the invariant, where the memory
is in canonical form and its addresses and `ip` are words. -/
theorem inv_of_running {s t : State} (h : s.Inv) (hr : s.status.state = .running) (hst : t.status = s.status)
    (hm : t.mem.wf = true) (hx : (t.mem.extent : Int) ≤ wmax + 1) (hip : (t.ip : Int) ≤ wmax) : t.Inv where
  memory := hm
  extent := hx
  ip := hip
  cause := hst ▸ h.cause
  runtime := hst ▸ h.runtime
  clear := hst ▸ h.clear
  failed := by simp [hst, hr]
  halted := by simp [hst, hr]
  loaded := by simp [hst, hr]

/-- R97: committing the effect of the instruction at `ip` keeps the invariant. -/
theorem commit_inv {i : Instr} {s : State} {e : Effect} (h : s.Inv) (hr : s.status.state = .running)
    (hd : decode (fetch s) = .ok i) (he : effectOf i s = .ok e) : (commit e s).Inv := by
  obtain ⟨rfl, -⟩ | ⟨-, n, hc, hn⟩ := effectOf_control he
  · cases he
    exact setRunState_halted_inv h hr hd
  · refine inv_of_running h hr ?_ (commit_mem_wf h.memory e) (commit_extent_le h.extent he) ?_
    · rw [commit_status, hc]
    · rw [commit_ip, hc]
      exact hn

/-- Settles O36: by the three ways a step can end, a decode error, a commit and an instruction's error. -/
theorem everyStepKeepsTheInvariant : Obligations.EveryStepKeepsTheInvariant := by
  intro s t h hst
  obtain ⟨hr, ⟨-, rfl⟩ | ⟨i, e, hd, he, rfl⟩ | ⟨i, e, -, he, rfl⟩⟩ := step_cases hst
  · exact failedState_inv h nofun
  · exact commit_inv h hr hd he
  · exact failedState_inv h (effectOf_error_ne_programFormatError he)

/-- Settles O35: each clause is a fact about the fixed values of R29. -/
theorem resetMeetsTheInvariant : Obligations.ResetMeetsTheInvariant where
  memory := rfl
  extent := by decide
  ip := by decide
  cause := by decide
  runtime := by decide
  clear := fun _ => ⟨rfl, rfl, rfl, rfl⟩
  failed := nofun
  halted := nofun
  loaded := fun _ => ⟨rfl, rfl, rfl, rfl⟩

/-! ### The instruction pointer (R21) -/

/-- A commit raises no error: it leaves a state that is not FAILED so. -/
theorem commit_state_ne_failed {s : State} (hr : s.status.state ≠ .failed) (e : Effect) :
    (commit e s).status.state ≠ .failed := by
  rw [commit_status]
  split
  · exact hr
  · exact nofun

/-- An instruction that ends in FAILED, from a state that is not, has taken its error. -/
theorem exec_ip_of_failed {i : Instr} {s t : State} (hr : s.status.state ≠ .failed) (h : exec i s = .next t)
    (ht : t.status.state = .failed) : t.ip = s.ip := by
  obtain ⟨e, -, rfl⟩ | ⟨e, -, rfl⟩ := exec_eq_next.mp h
  · exact absurd ht (commit_state_ne_failed hr e)
  · rfl

/-- An instruction that does not end in FAILED has committed its effect. -/
theorem exec_effect_of_not_failed {i : Instr} {s t : State} (h : exec i s = .next t)
    (ht : t.status.state ≠ .failed) : ∃ e, effectOf i s = .ok e ∧ t = commit e s := by
  obtain h | ⟨e, -, rfl⟩ := exec_eq_next.mp h
  · exact h
  · exact absurd rfl ht

theorem step_ip_of_failed {s t : State} (h : step s = .next t) (ht : t.status.state = .failed) : t.ip = s.ip := by
  obtain ⟨hr, ⟨-, rfl⟩ | ⟨i, -, h⟩⟩ := step_eq_next.mp h
  · rfl
  · exact exec_ip_of_failed (by simp [hr]) h ht

theorem threeParams_commit_ip {f : Word → Word → Except Raise Word} {a b dst : Param} {s : State} {e : Effect}
    (h : threeParams f a b dst s = .ok e) : (commit e s).ip = s.ip + 4 := by
  obtain ⟨_, _, _, _, -, -, -, -, -, rfl⟩ := threeParams_eq_ok.mp h
  rw [commit_ip]

theorem jumpEffect_commit_ip {c : Word → Bool} {a target : Param} {s : State} {e : Effect}
    (h : jumpEffect c a target s = .ok e) :
    ∃ x y, ReadsAs s 1 a x ∧ ReadsAs s 2 target y ∧
      (commit e s).ip = if c x = true then y.toInt.toNat else s.ip + 3 := by
  obtain ⟨x, y, hx, hy, ⟨hc, -, rfl⟩ | ⟨hc, -, rfl⟩⟩ := jumpEffect_eq_ok.mp h
  · exact ⟨x, y, hx, hy, by rw [commit_ip, if_pos hc]⟩
  · exact ⟨x, y, hx, hy, by rw [commit_ip, hc, if_neg nofun]⟩

/-- Settles O23: an error leaves `ip`, and a commit sets it by the row of the table. -/
theorem ipAdvancesByTheTable : Obligations.IpAdvancesByTheTable := by
  refine ⟨fun s t => step_ip_of_failed, fun i s t hr h =>
    ⟨exec_ip_of_failed (by simp [hr]) h, fun ht => ?_⟩⟩
  obtain ⟨e, he, rfl⟩ := exec_effect_of_not_failed h ht
  cases i with
  | add a b dst => exact threeParams_commit_ip he
  | mul a b dst => exact threeParams_commit_ip he
  | lt a b dst => exact threeParams_commit_ip he
  | eq a b dst => exact threeParams_commit_ip he
  | inp dst => obtain ⟨_, _, _, -, -, -, rfl⟩ := inputEffect_eq_ok.mp he; exact commit_ip _ s
  | out a => obtain ⟨_, -, -, rfl⟩ := outputEffect_eq_ok.mp he; exact commit_ip _ s
  | arb a => obtain ⟨_, -, -, -, rfl⟩ := baseEffect_eq_ok.mp he; exact commit_ip _ s
  | jt a target => simpa [nonZero] using jumpEffect_commit_ip he
  | jf a target => simpa [nonZero] using jumpEffect_commit_ip he
  | hlt => cases he; exact commit_ip _ s

/-! ### The relative base and the two sequences (R22, R23, R26, R27) -/

/-- Settles O24: an effect writes `rb` only if it is `arb`'s, and an error writes nothing but STATUS. -/
theorem onlyArbChangesTheBase : Obligations.OnlyArbChangesTheBase := by
  intro s t hst hne
  obtain ⟨-, ⟨-, rfl⟩ | ⟨i, e, hd, he, rfl⟩ | ⟨i, e, -, -, rfl⟩⟩ := step_cases hst
  · exact absurd rfl hne
  · obtain hb | ⟨a, rfl⟩ := effectOf_base he
    · exact absurd (by rw [commit_rb, hb]) hne
    · exact ⟨a, hd⟩
  · exact absurd rfl hne

/-- R27: what a step does to the output sequence. -/
theorem step_output {s t : State} (hst : step s = .next t) :
    t.output = s.output ∨
      ∃ a x, decode (fetch s) = .ok (.out a) ∧ ReadsAs s 1 a x ∧ t.output = s.output ++ [x] := by
  obtain ⟨-, ⟨-, rfl⟩ | ⟨i, e, hd, he, rfl⟩ | ⟨i, e, -, -, rfl⟩⟩ := step_cases hst
  · exact .inl rfl
  · rw [commit_output]
    obtain ⟨hio, -⟩ | ⟨_, _, _, _, -, -, -, hio, -⟩ | ⟨a, x, rfl, hx, hio⟩ := effectOf_io he
    · exact .inl (by rw [hio])
    · exact .inl (by rw [hio])
    · exact .inr ⟨a, x, hd, hx, by rw [hio]⟩
  · exact .inl rfl

/-- Settles O25: by the I/O update of the effect that a step commits. -/
theorem outputOnlyGrowsByOut : Obligations.OutputOnlyGrowsByOut :=
  ⟨rfl, fun _ _ => step_output, fun s hs => by rw [runResult, hs]⟩

/-- R101, R165: `run` sets the queue to the sequence passed to it. -/
theorem start_input {q : List Word} {s t : State} (h : start q s = .next t) : t.input = q := by
  unfold start at h
  split at h
  · cases h; rfl
  all_goals cases h

/-- R26: what a step does to the input queue. -/
theorem step_input {s t : State} (hm : s.mem.wf = true) (hst : step s = .next t) :
    t.input = s.input ∨
      ∃ v d dst, decode (fetch s) = .ok (.inp dst) ∧ TargetIs s 1 dst d ∧ s.input = v :: t.input ∧
        t.mem.read d = v := by
  obtain ⟨-, ⟨-, rfl⟩ | ⟨i, e, hd, he, rfl⟩ | ⟨i, e, -, -, rfl⟩⟩ := step_cases hst
  · exact .inl rfl
  · rw [commit_input, commit_mem]
    obtain ⟨hio, -⟩ | ⟨dst, d, v, q, rfl, ht, hq, hio, hs⟩ | ⟨_, _, -, -, hio⟩ := effectOf_io he
    · exact .inl (by rw [hio])
    · refine .inr ⟨v, d, dst, hd, ht, ?_, ?_⟩
      · rw [hio, hq, List.tail_cons]
      · rw [hs]
        exact Memory.read_write_same hm d v
    · exact .inl (by rw [hio])
  · exact .inl rfl

/-- Settles O26: by the I/O update of the effect that a step commits. -/
theorem inputIsConsumedInOrder : Obligations.InputIsConsumedInOrder :=
  ⟨rfl, fun _ _ _ => start_input, fun _ _ => step_input⟩

/-! ### The extent is unobservable (R31, R42) -/

theorem SameButExtent.symm {s s' : State} (h : SameButExtent s s') : SameButExtent s' s := by
  obtain ⟨hc, hip, hrb, hin, hout, hst, hr⟩ := h
  exact ⟨hc.symm, hip.symm, hrb.symm, hin.symm, hout.symm, hst.symm, fun a => (hr a).symm⟩

section Observations
variable {s s' : State} (h : SameButExtent s s')
include h

theorem SameButExtent.fetch_eq : fetch s' = fetch s := by
  obtain ⟨-, hip, -, -, -, -, hr⟩ := h
  simp only [fetch, hip, hr]

theorem SameButExtent.readParam_eq (k : Fin 4) (p : Param) : readParam s' k p = readParam s k p := by
  obtain ⟨-, hip, hrb, -, -, -, hr⟩ := h
  simp only [readParam, paramAddress, relativeAddress, memRead, hip, hrb, hr]

theorem SameButExtent.writeParam_eq (k : Fin 4) (p : Param) : writeParam s' k p = writeParam s k p := by
  obtain ⟨hc, hip, hrb, -, -, -, -⟩ := h
  simp only [writeParam, paramAddress, relativeAddress, checkTarget, hc, hip, hrb]

theorem SameButExtent.successor_eq (k : Nat) : successor s' k = successor s k := by
  obtain ⟨-, hip, -⟩ := h
  simp only [successor, hip]

theorem SameButExtent.threeParams_eq (f : Word → Word → Except Raise Word) (a b dst : Param) :
    threeParams f a b dst s' = threeParams f a b dst s := by
  simp only [threeParams, h.readParam_eq, h.writeParam_eq, h.successor_eq]

theorem SameButExtent.jumpEffect_eq (c : Word → Bool) (a target : Param) :
    jumpEffect c a target s' = jumpEffect c a target s := by
  simp only [jumpEffect, jumpControl, h.readParam_eq, h.successor_eq]

/-- Every instruction has the same effect, or the same error, in both states. -/
theorem SameButExtent.effectOf_eq (i : Instr) : effectOf i s' = effectOf i s := by
  have ⟨_, _, hrb, hin, _⟩ := h
  cases i with
  | add a b dst => exact h.threeParams_eq _ a b dst
  | mul a b dst => exact h.threeParams_eq _ a b dst
  | lt a b dst => exact h.threeParams_eq _ a b dst
  | eq a b dst => exact h.threeParams_eq _ a b dst
  | inp dst => simp only [effectOf, inputEffect, h.writeParam_eq, h.successor_eq, hin]
  | out a => simp only [effectOf, outputEffect, h.readParam_eq, h.successor_eq]
  | jt a target => exact h.jumpEffect_eq _ a target
  | jf a target => exact h.jumpEffect_eq _ a target
  | arb a => simp only [effectOf, baseEffect, h.readParam_eq, h.successor_eq, hrb]
  | hlt => rfl

end Observations

/-- R42, R43, R187: what an address reads as after a store. -/
theorem State.store_read {s : State} (hm : s.mem.wf = true) (d : Nat) (v : Word) (a : Nat) :
    (s.store d v).read a = if a = d ∧ a < s.cfg.memLimit then v else s.read a := by
  by_cases hl : a < s.cfg.memLimit
  · rw [State.read_below (s := s.store d v) hl, State.read_below hl, State.store_mem]
    by_cases had : a = d
    · rw [if_pos ⟨had, hl⟩, had, Memory.read_write_same hm]
    · rw [if_neg (fun hc => had hc.1), Memory.read_write_other hm had]
  · rw [State.read_limit (s := s.store d v) (Nat.le_of_not_lt hl), State.read_limit (Nat.le_of_not_lt hl),
      if_neg (fun hc => hl hc.2)]

theorem SameButExtent.store {s s' : State} (h : SameButExtent s s') (hm : s.mem.wf = true) (hm' : s'.mem.wf = true)
    (d : Nat) (v : Word) : SameButExtent (s.store d v) (s'.store d v) := by
  obtain ⟨hc, hip, hrb, hin, hout, hst, hr⟩ := h
  exact ⟨hc, hip, hrb, hin, hout, hst, fun a => by rw [State.store_read hm', State.store_read hm, hc, hr]⟩

theorem SameButExtent.applyStore {s s' : State} (h : SameButExtent s s') (hm : s.mem.wf = true)
    (hm' : s'.mem.wf = true) : ∀ w, SameButExtent (applyStore w s) (applyStore w s')
  | none => h
  | some (d, v) => h.store hm hm' d v

theorem SameButExtent.applyIo {s s' : State} (h : SameButExtent s s') (io : IoUpdate) :
    SameButExtent (applyIo io s) (applyIo io s') := by
  have ⟨hc, hip, hrb, hin, hout, hst, hr⟩ := h
  cases io with
  | none => exact h
  | pop => exact ⟨hc, hip, hrb, congrArg List.tail hin, hout, hst, hr⟩
  | push v => exact ⟨hc, hip, hrb, hin, congrArg (· ++ [v]) hout, hst, hr⟩

theorem SameButExtent.applyBase {s s' : State} (h : SameButExtent s s') (b : Option Word) :
    SameButExtent (applyBase b s) (applyBase b s') := by
  have ⟨hc, hip, _, hin, hout, hst, hr⟩ := h
  cases b with
  | none => exact h
  | some v => exact ⟨hc, hip, rfl, hin, hout, hst, hr⟩

theorem SameButExtent.applyControl {s s' : State} (h : SameButExtent s s') (c : Control) :
    SameButExtent (applyControl c s) (applyControl c s') := by
  obtain ⟨hc, hip, hrb, hin, hout, hst, hr⟩ := h
  cases c with
  | goto a => exact ⟨hc, rfl, hrb, hin, hout, hst, hr⟩
  | halt => exact ⟨hc, hip, hrb, hin, hout, congrArg (fun st => { st with state := .halted }) hst, hr⟩

theorem SameButExtent.commit {s s' : State} (h : SameButExtent s s') (hm : s.mem.wf = true)
    (hm' : s'.mem.wf = true) (e : Effect) : SameButExtent (commit e s) (commit e s') :=
  (((h.applyStore hm hm' e.store).applyIo e.io).applyBase e.base).applyControl e.control

theorem SameButExtent.failedState {s s' : State} (h : SameButExtent s s') (e : Raise) :
    SameButExtent (failedState s e) (failedState s' e) := by
  obtain ⟨hc, hip, hrb, hin, hout, -, hr⟩ := h
  exact ⟨hc, hip, hrb, hin, hout, by simp only [Machine.failedState, hip, hr], hr⟩

/-- Of two states that differ in the extent alone, each step of the one is a step of the other. -/
theorem SameButExtent.step {s s' t : State} (h : SameButExtent s s') (hm : s.mem.wf = true) (hm' : s'.mem.wf = true)
    (hst : step s = .next t) : ∃ t', Machine.step s' = .next t' ∧ SameButExtent t t' := by
  have ⟨_, hip, _, _, _, hstatus, hread⟩ := h
  have hword : s'.read s'.ip = s.read s.ip := by rw [hip, hread]
  have hdecode : decode (fetch s') = decode (fetch s) := by rw [h.fetch_eq]
  obtain ⟨hr, hcases⟩ := step_cases hst
  rw [← hstatus] at hr
  obtain ⟨hd, rfl⟩ | ⟨i, e, hd, he, rfl⟩ | ⟨i, e, hd, he, rfl⟩ := hcases
  · refine ⟨_, step_eq_next.mpr ⟨hr, .inl ⟨hdecode.trans hd, rfl⟩⟩, ?_⟩
    rw [hword]
    exact h.failedState _
  · exact ⟨_, step_eq_next.mpr ⟨hr, .inr ⟨i, hdecode.trans hd, exec_of_effect ((h.effectOf_eq i).trans he)⟩⟩,
      h.commit hm hm' e⟩
  · exact ⟨_, step_eq_next.mpr ⟨hr, .inr ⟨i, hdecode.trans hd, exec_of_error ((h.effectOf_eq i).trans he)⟩⟩,
      h.failedState e⟩

theorem runFor_of_step {s t : State} (h : step s = .next t) (n : Nat) : runFor (n + 1) s = runFor n t := by
  rw [runFor, h]

theorem runFor_of_no_step {s : State} (h : ∀ t, step s ≠ .next t) (n : Nat) : runFor n s = s := by
  cases n with
  | zero => rfl
  | succ n =>
    unfold runFor
    split
    · next t ht => exact absurd ht (h t)
    · rfl
    · rfl

/-- Two states that differ in the extent alone stay so over any number of steps. -/
theorem SameButExtent.runFor {n : Nat} : ∀ {s s' : State}, SameButExtent s s' → s.mem.wf = true →
    s'.mem.wf = true → SameButExtent (runFor n s) (runFor n s') := by
  induction n with
  | zero => exact fun h _ _ => h
  | succ n ih =>
    intro s s' h hm hm'
    by_cases hst : ∃ t, Machine.step s = .next t
    · obtain ⟨t, ht⟩ := hst
      obtain ⟨t', ht', h'⟩ := h.step hm hm' ht
      rw [runFor_of_step ht, runFor_of_step ht']
      exact ih h' (step_mem_wf hm ht) (step_mem_wf hm' ht')
    · have hst' : ∀ t', Machine.step s' ≠ .next t' := fun t' ht' =>
        let ⟨t, ht, _⟩ := h.symm.step hm' hm ht'
        hst ⟨t, ht⟩
      rw [runFor_of_no_step (fun t ht => hst ⟨t, ht⟩), runFor_of_no_step hst']
      exact h

/-- Settles O31: both states give every instruction one effect, and every part of a commit keeps the agreement. -/
theorem theExtentIsUnobservable : Obligations.TheExtentIsUnobservable :=
  fun _ _ hm hm' h => ⟨fun _ => h.step hm hm', fun _ => h.runFor hm hm'⟩

end Sys2Proof.Machine
end

section
/-! SUPPORT. Memory (20_memory.md): what MemRead and MemWrite answer, the canonical form as a normal form, what a step does
to the cells, and that the next fetch sees a store. -/

namespace Sys2Proof.Machine

/-! ### Addresses resolved without an error (R94, R95) -/

theorem paramAddress_bind_of_le {β : Type} {s : State} {i : Fin 4} (h : (s.ip : Int) + i.val ≤ wmax)
    (f : Int → Except Raise β) : (paramAddress s i >>= f) = f ((s.ip : Int) + i.val) := by
  rw [paramAddress_eq_ok.mpr ⟨h, rfl⟩]
  rfl

theorem relativeAddress_bind_of_inRange {β : Type} {s : State} (i : Fin 4) {p : Param} (h : InRange (relativeSum s p))
    (f : Int → Except Raise β) : (relativeAddress s i p.word >>= f) = f (relativeSum s p) := by
  have hchk : relativeAddress s i p.word = .ok (relativeSum s p) := chk_eq_ok.mpr ⟨h, rfl⟩
  rw [hchk]
  rfl

section Resolution
variable {s : State} {i : Fin 4} {p : Param} (hip : (s.ip : Int) + i.val ≤ wmax)
include hip

theorem readParam_position (hp : p.mode = .position) : readParam s i p = memRead s i p.word.toInt := by
  rw [readParam, hp]
  exact paramAddress_bind_of_le hip _

theorem readParam_relative (hp : p.mode = .relative) (hr : InRange (relativeSum s p)) :
    readParam s i p = memRead s i (relativeSum s p) := by
  rw [readParam, hp]
  exact (paramAddress_bind_of_le hip _).trans (relativeAddress_bind_of_inRange i hr _)

theorem writeParam_position (hp : p.mode = .position) : writeParam s i p = checkTarget s i p.word.toInt := by
  rw [writeParam, hp]
  exact paramAddress_bind_of_le hip _

theorem writeParam_relative (hp : p.mode = .relative) (hr : InRange (relativeSum s p)) :
    writeParam s i p = checkTarget s i (relativeSum s p) := by
  rw [writeParam, hp]
  exact (paramAddress_bind_of_le hip _).trans (relativeAddress_bind_of_inRange i hr _)

end Resolution

/-! ### MemRead (R42, R187) -/

theorem memRead_natCast (s : State) (i : Fin 4) (a : Nat) : memRead s i a = .ok (s.read a) :=
  memRead_eq_ok.mpr ⟨Int.natCast_nonneg a, rfl⟩

theorem Memory.read_inside {m : Memory} {a : Nat} (h : a < m.extent) : m.read a = lookupCell a m.cells := by
  rw [Memory.read, if_pos h]

/-- R42, R187: each bound of MemRead on its own, and the cell between them. -/
theorem memRead_by_address (s : State) (i : Fin 4) (a : Int) :
    (a < 0 → memRead s i a = .error ⟨.addressError, i, a⟩) ∧
    (0 ≤ a → (s.mem.extent : Int) ≤ a → memRead s i a = .ok 0) ∧
    (0 ≤ a → (s.cfg.memLimit : Int) ≤ a → memRead s i a = .ok 0) ∧
    (0 ≤ a → a < s.mem.extent → a < s.cfg.memLimit → memRead s i a = .ok (lookupCell a.toNat s.mem.cells)) := by
  refine ⟨fun hneg => memRead_eq_error.mpr ⟨hneg, rfl⟩, fun h0 he => ?_, fun h0 hl => ?_, fun h0 he hl => ?_⟩
  · exact memRead_eq_ok.mpr ⟨h0, (State.read_beyond (by omega)).symm⟩
  · exact memRead_eq_ok.mpr ⟨h0, (State.read_limit (by omega)).symm⟩
  · refine memRead_eq_ok.mpr ⟨h0, ?_⟩
    rw [State.read_below (by omega), Memory.read_inside (by omega)]

/-- Settles O32: every fetched word and every operand resolved in memory is a MemRead, and MemRead's answer follows the
address. -/
theorem memReadFollowsItsRule : Obligations.MemReadFollowsItsRule := fun s i =>
  have fetched (k : Nat) : memRead s i (s.ip + k) = .ok (s.read (s.ip + k)) := memRead_natCast s i (s.ip + k)
  ⟨⟨fetched 0, fetched 1, fetched 2, fetched 3⟩,
    fun _ hip => ⟨readParam_position hip, readParam_relative hip⟩, memRead_by_address s i⟩

/-! ### MemWrite (R43) -/

/-- R43, R95: the checks on a write-target address. -/
theorem checkTarget_by_address (s : State) (i : Fin 4) (a : Int) :
    (a < 0 → checkTarget s i a = .error ⟨.addressError, i, a⟩) ∧
    (0 ≤ a → (s.cfg.memLimit : Int) ≤ a → checkTarget s i a = .error ⟨.capacityExceeded, i, a⟩) ∧
    (0 ≤ a → a < s.cfg.memLimit → checkTarget s i a = .ok a.toNat) :=
  ⟨fun hneg => checkTarget_eq_error.mpr (.inl ⟨hneg, rfl⟩),
    fun h0 hl => checkTarget_eq_error.mpr (.inr ⟨h0, hl, rfl⟩),
    fun h0 hl => checkTarget_eq_ok.mpr ⟨by omega, by omega⟩⟩

theorem Memory.write_extent_eq_ite (m : Memory) (a : Nat) (v : Word) :
    (m.write a v).extent = if m.extent ≤ a then a + 1 else m.extent := by
  rw [Memory.write_extent]
  split <;> omega

/-- R43: the cells that a growing write adds below its address are 0. -/
theorem Memory.read_write_between {m : Memory} (h : m.wf = true) {a b : Nat} (v : Word) (hb : m.extent ≤ b)
    (hba : b < a) : (m.write a v).read b = 0 := by
  rw [Memory.read_write_other h (by omega), Memory.read_beyond hb]

/-- Settles O33: the checks stand in `checkTarget`, and a commit makes the one store of its effect. -/
theorem memWriteFollowsItsRule : Obligations.MemWriteFollowsItsRule :=
  ⟨checkTarget_by_address, fun _ _ _ hip => ⟨writeParam_position hip, writeParam_relative hip⟩,
    fun s e => commit_mem e s,
    fun m a v hm => ⟨m.write_extent_eq_ite a v, Memory.read_write_same hm a v,
      fun _ _ hba => Memory.read_write_other hm hba v, fun _ => Memory.read_write_between hm v⟩⟩

/-! ### The canonical form is a normal form (R45, log 1) -/

theorem cellsWf_cons {extent lo a : Nat} {v : Word} {cs : List Cell} :
    cellsWf extent lo ((a, v) :: cs) = true ↔ lo ≤ a ∧ a < extent ∧ v ≠ 0 ∧ cellsWf extent (a + 1) cs = true := by
  simp only [cellsWf, Bool.and_eq_true, decide_eq_true_eq, and_assoc]

@[simp] theorem lookupCell_cons_same (a : Nat) (v : Word) (cs : List Cell) : lookupCell a ((a, v) :: cs) = v :=
  if_pos rfl

theorem lookupCell_cons_other {a b : Nat} (h : b ≠ a) (v : Word) (cs : List Cell) :
    lookupCell b ((a, v) :: cs) = lookupCell b cs :=
  if_neg h.symm

/-- The first address of a canonical list is the least that holds a word other than 0. -/
theorem head_le_of_lookupCell_ne_zero {extent lo a b : Nat} {v : Word} {cs : List Cell}
    (h : cellsWf extent lo ((a, v) :: cs) = true) (hb : lookupCell b ((a, v) :: cs) ≠ 0) : a ≤ b := by
  obtain ⟨-, -, -, hcs⟩ := cellsWf_cons.mp h
  by_contra hlt
  refine hb ?_
  rw [lookupCell_cons_other (by omega)]
  exact lookupCell_below hcs (by omega)

/-- Canonical lists with equal reads begin with one address. -/
theorem head_address_eq {extent lo a b : Nat} {v w : Word} {cs ds : List Cell}
    (hc : cellsWf extent lo ((a, v) :: cs) = true) (hd : cellsWf extent lo ((b, w) :: ds) = true)
    (h : ∀ x, lookupCell x ((a, v) :: cs) = lookupCell x ((b, w) :: ds)) : a = b := by
  obtain ⟨-, -, hv, -⟩ := cellsWf_cons.mp hc
  obtain ⟨-, -, hw, -⟩ := cellsWf_cons.mp hd
  have hba : b ≤ a := head_le_of_lookupCell_ne_zero hd (by rwa [← h a, lookupCell_cons_same])
  have hab : a ≤ b := head_le_of_lookupCell_ne_zero hc (by rwa [h b, lookupCell_cons_same])
  omega

/-- Canonical lists with equal reads are equal, cell by cell. -/
theorem cells_eq_of_lookupCell_eq {extent : Nat} : ∀ {cs ds : List Cell} {lo : Nat}, cellsWf extent lo cs = true →
    cellsWf extent lo ds = true → (∀ x, lookupCell x cs = lookupCell x ds) → cs = ds
  | [], [], _, _, _, _ => rfl
  | [], (b, w) :: ds, _, _, hd, h => by
    obtain ⟨-, -, hw, -⟩ := cellsWf_cons.mp hd
    exact absurd (by rw [← lookupCell_cons_same b w ds, ← h b]; rfl) hw
  | (a, v) :: cs, [], _, hc, _, h => by
    obtain ⟨-, -, hv, -⟩ := cellsWf_cons.mp hc
    exact absurd (by rw [← lookupCell_cons_same a v cs, h a]; rfl) hv
  | (a, v) :: cs, (b, w) :: ds, _, hc, hd, h => by
    obtain rfl := head_address_eq hc hd h
    obtain ⟨-, -, -, hcs⟩ := cellsWf_cons.mp hc
    obtain ⟨-, -, -, hds⟩ := cellsWf_cons.mp hd
    obtain rfl : v = w := by simpa using h a
    have htail : ∀ x, lookupCell x cs = lookupCell x ds := fun x => by
      by_cases hx : x = a
      · rw [lookupCell_below hcs (by omega), lookupCell_below hds (by omega)]
      · simpa only [lookupCell_cons_other hx] using h x
    rw [cells_eq_of_lookupCell_eq hcs hds htail]

/-- Settles O34: in canonical form a read is a lookup, and the lookups determine the list of cells. -/
theorem canonicalMemoriesWithEqualReadsAreEqual : Obligations.CanonicalMemoriesWithEqualReadsAreEqual := by
  rintro ⟨extent, cs⟩ ⟨_, ds⟩ hm hn rfl h
  have hlookup : ∀ a, lookupCell a cs = lookupCell a ds := fun a => by
    simpa only [Memory.read_eq_lookup hm, Memory.read_eq_lookup hn] using h a
  obtain rfl : cs = ds := cells_eq_of_lookupCell_eq hm hn hlookup
  rfl

/-! ### What a step does to the cells (R44) -/

theorem commit_extent_ge (e : Effect) (s : State) : s.mem.extent ≤ (commit e s).mem.extent := by
  rw [commit_mem]
  split
  · exact le_refl _
  · exact Nat.le_max_left _ _

theorem step_extent_ge {s t : State} (h : step s = .next t) : s.mem.extent ≤ t.mem.extent := by
  obtain ⟨-, ⟨-, rfl⟩ | ⟨_, e, -, -, rfl⟩ | ⟨_, _, -, -, rfl⟩⟩ := step_cases h
  · exact le_refl _
  · exact commit_extent_ge e s
  · exact le_refl _

theorem runFor_extent_ge (n : Nat) : ∀ s, s.mem.extent ≤ (runFor n s).mem.extent := by
  induction n with
  | zero => exact fun s => le_refl _
  | succ n ih =>
    intro s
    by_cases hst : ∃ t, step s = .next t
    · obtain ⟨t, ht⟩ := hst
      rw [runFor_of_step ht]
      exact (step_extent_ge ht).trans (ih t)
    · rw [runFor_of_no_step (fun t ht => hst ⟨t, ht⟩)]

/-- An instruction's store goes to the address its write-target parameter resolves to. -/
theorem storeParam_of_effectOf_store {i : Instr} {s : State} {e : Effect} {d : Nat} {r : Word}
    (h : effectOf i s = .ok e) (he : e.store = some (d, r)) : ∃ k p, storeParam i = some (k, p) ∧ TargetIs s k p d := by
  have hs := effectOf_store h
  cases hp : storeParam i with
  | none => simp [hp, he] at hs
  | some kp =>
    simp only [hp, he, Option.some.injEq, Prod.mk.injEq] at hs
    obtain ⟨_, _, ht, rfl, -⟩ := hs
    exact ⟨kp.1, kp.2, rfl, ht⟩

/-- A commit leaves every cell but the one its instruction names as write target. -/
theorem commit_read_eq_or_stores {i : Instr} {s : State} {e : Effect} (hm : s.mem.wf = true)
    (hd : decode (fetch s) = .ok i) (he : effectOf i s = .ok e) (a : Nat) :
    (commit e s).mem.read a = s.mem.read a ∨ NextStoresTo s a := by
  rw [commit_mem]
  split
  · exact .inl rfl
  · next d r hstore =>
    by_cases had : a = d
    · obtain ⟨k, p, hp, ht⟩ := storeParam_of_effectOf_store he hstore
      exact .inr ⟨i, k, p, hd, hp, had ▸ ht⟩
    · exact .inl (Memory.read_write_other hm had r)

theorem step_read_eq_or_stores {s t : State} (hm : s.mem.wf = true) (h : step s = .next t) (a : Nat) :
    t.mem.read a = s.mem.read a ∨ NextStoresTo s a := by
  obtain ⟨-, ⟨-, rfl⟩ | ⟨i, e, hd, he, rfl⟩ | ⟨_, _, -, -, rfl⟩⟩ := step_cases h
  · exact .inl rfl
  · exact commit_read_eq_or_stores hm hd he a
  · exact .inl rfl

/-- Settles O27: only a commit writes memory, to its instruction's target, and a write never lowers the extent. -/
theorem memoryGrowsMonotonically : Obligations.MemoryGrowsMonotonically :=
  ⟨fun s n => runFor_extent_ge n s, fun _ _ hm h => ⟨step_extent_ge h, step_read_eq_or_stores hm h⟩⟩

/-! ### The next fetch sees the store (R53, R215) -/

theorem truthWord_decide (c : Prop) [Decidable c] : truthWord (decide c) = Word.ofInt (if c then 1 else 0) := by
  by_cases h : c <;> simp [truthWord, h]

/-- An instruction of format F3RRW whose checks all pass stores its word and goes on to the next instruction. -/
theorem threeParams_stores {f : Word → Word → Except Raise Word} {a b dst : Param} {s : State} {x y r : Word} {d : Nat}
    (hx : ReadsAs s 1 a x) (hy : ReadsAs s 2 b y) (hd : TargetIs s 3 dst d) (hf : f x y = .ok r)
    (hn : (s.ip : Int) + 4 ≤ wmax) :
    ∃ e, threeParams f a b dst s = .ok e ∧ e.store = some (d, r) ∧ e.control = .goto (s.ip + 4) :=
  ⟨_, threeParams_eq_ok.mpr ⟨x, y, d, r, hx, hy, hd, hf, by omega, rfl⟩, rfl, rfl⟩

/-- The effect of a storing instruction whose checks all pass. -/
theorem effectOf_stores {i : Instr} {s : State} {k : Fin 4} {p : Param} {d : Nat} {v : Int}
    (hp : storeParam i = some (k, p)) (hd : TargetIs s k p d) (hs : StoresValue s v i) (hv : InRange v)
    (hn : (s.ip : Int) + i.length ≤ wmax) :
    ∃ e, effectOf i s = .ok e ∧ e.store = some (d, Word.ofInt v) ∧ e.control = .goto (s.ip + i.length) := by
  cases i with
  | add a b dst =>
    obtain ⟨x, y, hx, hy, rfl⟩ := hs
    cases hp
    exact threeParams_stores hx hy hd (checkedWord_eq_ok.mpr ⟨hv, rfl⟩) hn
  | mul a b dst =>
    obtain ⟨x, y, hx, hy, rfl⟩ := hs
    cases hp
    exact threeParams_stores hx hy hd (checkedWord_eq_ok.mpr ⟨hv, rfl⟩) hn
  | lt a b dst =>
    obtain ⟨x, y, hx, hy, rfl⟩ := hs
    cases hp
    exact threeParams_stores hx hy hd (congrArg _ (truthWord_decide _)) hn
  | eq a b dst =>
    obtain ⟨x, y, hx, hy, rfl⟩ := hs
    cases hp
    exact threeParams_stores hx hy hd (congrArg _ (truthWord_decide _)) hn
  | inp dst =>
    obtain ⟨x, q, hq, rfl⟩ := hs
    cases hp
    have hnext : (s.ip : Int) + 2 ≤ wmax := hn
    exact ⟨_, inputEffect_eq_ok.mpr ⟨d, x, q, hd, hq, by omega, rfl⟩, by rw [Word.ofInt, BitVec.ofInt_toInt], rfl⟩
  | out a => exact hs.elim
  | jt a target => exact hs.elim
  | jf a target => exact hs.elim
  | arb a => exact hs.elim
  | hlt => exact hs.elim

/-- After a commit that stores where it goes on to, the word fetched next is the word stored. -/
theorem fetch_commit_of_store_at_next {s : State} {e : Effect} {d : Nat} {r : Word} (hm : s.mem.wf = true)
    (hl : d < s.cfg.memLimit) (hs : e.store = some (d, r)) (hc : e.control = .goto d) :
    (fetch (commit e s)).w = r := by
  have hip : (commit e s).ip = d := by rw [commit_ip, hc]
  have hmem : (commit e s).mem = s.mem.write d r := by rw [commit_mem, hs]
  calc (fetch (commit e s)).w = (commit e s).read d := by rw [← hip]; rfl
    _ = (commit e s).mem.read d := State.read_below (by rwa [commit_cfg])
    _ = r := by rw [hmem, Memory.read_write_same hm]

/-- Settles O30: the instruction commits its store and goes on to the address it has stored to. -/
theorem nextFetchSeesTheStore : Obligations.NextFetchSeesTheStore := by
  intro i s k p v hm hp ht hs hv hn
  obtain ⟨e, he, hstore, hgoto⟩ := effectOf_stores hp ht hs hv hn
  have ⟨_, hl, _⟩ := ht
  refine ⟨commit e s, exec_of_effect he, by rw [commit_ip, hgoto], ?_⟩
  rw [fetch_commit_of_store_at_next hm hl hstore hgoto, toInt_ofInt hv]

end Sys2Proof.Machine
end

section
/-! SUPPORT. Encoding (30_encoding.md): what the decoder answers, field by field, and that it undoes the encoder; the
errors of the fetch; what an illegal mode digit does; the pseudo-instructions. -/

namespace Sys2Proof

/-! ### Decimal digits (R7) -/

theorem digit_le (n j : Nat) : digit n j ≤ 9 := Nat.le_of_lt_succ (Nat.mod_lt _ (by decide))

/-- Numbers that agree in their `m` lowest decimal digits agree in each of these digits. -/
theorem digit_eq_of_modEq {n n' m j : Nat} (h : n' ≡ n [MOD 10 ^ m]) (hj : j < m) : digit n' j = digit n j := by
  have hlow : n' % (10 ^ j * 10) = n % (10 ^ j * 10) := h.of_dvd (pow_succ 10 j ▸ pow_dvd_pow 10 hj)
  simp only [digit, ← Nat.mod_mul_right_div_self, hlow]

theorem digit_toNat {v : Int} (h : 0 ≤ v) (j : Nat) : (digit v.toNat j : Int) = v / 10 ^ j % 10 := by
  rw [digit]
  push_cast
  rw [Int.toNat_of_nonneg h]

/-! ### The fields of an instruction word (R62, R63, R64) -/

theorem Instr.opcode_lt (i : Instr) : i.opcode < 100 := by cases i <;> simp [Instr.opcode]

theorem Instr.params_length_le (i : Instr) : i.params.length ≤ 3 := by cases i <;> simp [Instr.params]

@[simp] theorem paramOf_word (n j : Nat) (p : Word) : (paramOf n j p).word = p := rfl

@[simp] theorem paramOf_mode_digit (n j : Nat) (p : Word) : (paramOf n j p).mode.digit = digit n (j + 1) :=
  Mode.digit_ofDigit (digit_le n (j + 1))

theorem paramOf_of_digit {n j : Nat} {p : Param} (h : p.mode.digit = digit n (j + 1)) : paramOf n j p.word = p := by
  rw [paramOf, ← h, Mode.ofDigit_digit]

/-- The three parameters that the window gives with the mode digits of `n`. -/
def windowParams (n : Nat) (f : Window) : List Param := [f.p1, f.p2, f.p3].mapIdx fun j p => paramOf n (j + 1) p

/-- The mode digits of `i` are those of `n`, and its parameter words the words of `f` in order. -/
def FieldsAgree (n : Nat) (f : Window) (i : Instr) : Prop :=
  (∀ j q, i.params[j]? = some q → q.2.mode.digit = digit n (j + 2)) ∧
  i.params.map (fun q => q.2.word) = [f.p1, f.p2, f.p3].take i.params.length

theorem windowParams_getElem? (n : Nat) (f : Window) (j : Nat) :
    (windowParams n f)[j]? = [f.p1, f.p2, f.p3][j]?.map (paramOf n (j + 1)) := List.getElem?_mapIdx

/-- Fields that agree say which parameters `i` has. -/
theorem fieldsAgree_iff {n : Nat} {f : Window} {i : Instr} :
    FieldsAgree n f i ↔ i.params.map Prod.snd = (windowParams n f).take i.params.length := by
  constructor
  · rintro ⟨hmode, hword⟩
    refine List.ext_getElem? fun j => ?_
    have hw := congrArg (·[j]?) hword
    simp only [List.getElem?_map, List.getElem?_take, windowParams_getElem?] at hw ⊢
    by_cases hj : j < i.params.length
    · have hq : i.params[j]? = some i.params[j] := List.getElem?_eq_getElem hj
      rw [if_pos hj, hq] at hw
      rw [if_pos hj, hq, ← hw, Option.map_some, Option.map_some, Option.map_some, paramOf_of_digit (hmode j _ hq)]
    · rw [if_neg hj, List.getElem?_eq_none (Nat.le_of_not_lt hj), Option.map_none]
  · intro h
    constructor
    · intro j q hq
      have hmem : q.2 ∈ (windowParams n f)[j]? := by
        have hj := congrArg (·[j]?) h
        simp only [List.getElem?_map, hq, Option.map_some, List.getElem?_take] at hj
        split at hj
        · exact hj.symm
        · cases hj
      rw [windowParams_getElem?] at hmem
      obtain ⟨p, -, hp⟩ := Option.map_eq_some_iff.mp hmem
      rw [← hp, paramOf_mode_digit]
    · calc i.params.map (fun q => q.2.word) = (i.params.map Prod.snd).map Param.word := by rw [List.map_map]; rfl
        _ = [f.p1, f.p2, f.p3].take i.params.length := by rw [h, List.map_take]; rfl

/-- The decoder answers `i` exactly where the opcode, the mode digits and the parameter words are those of `i`. -/
theorem decodeOpcode_eq_ok_iff {n : Nat} {f : Window} {i : Instr} :
    decodeOpcode n f = .ok i ↔ n % 100 = i.opcode ∧ FieldsAgree n f i := by
  rw [fieldsAgree_iff]
  constructor
  · intro h
    rcases decodeOpcode_eq_ok h with ⟨ho, rfl⟩ | ⟨ho, rfl⟩ | ⟨ho, rfl⟩ | ⟨ho, rfl⟩ | ⟨ho, rfl⟩ | ⟨ho, rfl⟩ | ⟨ho, rfl⟩ |
      ⟨ho, rfl⟩ | ⟨ho, rfl⟩ | ⟨ho, rfl⟩
    all_goals exact ⟨ho, rfl⟩
  · rintro ⟨ho, hp⟩
    rw [decodeOpcode, opcodeOf, ho]
    cases i <;> cases hp <;> rfl

theorem decode_eq_ok_iff {f : Window} {i : Instr} :
    decode f = .ok i ↔ 0 ≤ f.w.toInt ∧ f.w.toInt.toNat % 100 = i.opcode ∧ FieldsAgree f.w.toInt.toNat f i := by
  constructor
  · intro h
    obtain ⟨h0, h⟩ := decode_eq_ok h
    exact ⟨h0, decodeOpcode_eq_ok_iff.mp h⟩
  · rintro ⟨h0, h⟩
    rw [decode_of_nonneg h0]
    exact decodeOpcode_eq_ok_iff.mpr h

/-- Settles O2: the fields of the decoded instruction, read as decimal digits of an integer. -/
theorem decodeReadsTheDecimalFields : Obligations.DecodeReadsTheDecimalFields := by
  intro f i h
  obtain ⟨h0, ho, hmode, hword⟩ := decode_eq_ok_iff.mp h
  refine ⟨h0, by omega, fun j q hq => ?_, hword⟩
  rw [hmode j q hq, digit_toNat h0]

/-! ### Ignored digits (R65) -/

theorem toNat_modEq_of_emod_eq {v v' : Int} {m : Nat} (h0 : 0 ≤ v) (h0' : 0 ≤ v') (h : v' % 10 ^ m = v % 10 ^ m) :
    v'.toNat ≡ v.toNat [MOD 10 ^ m] := by
  rw [← Int.natCast_modEq_iff, Int.toNat_of_nonneg h0, Int.toNat_of_nonneg h0']
  push_cast
  exact h

/-- The fields of an instruction with `k` parameters lie in the `k + 2` lowest digits. -/
theorem FieldsAgree.of_modEq {n n' : Nat} {f : Window} {i : Instr} (h : FieldsAgree n f i)
    (hn : n' ≡ n [MOD 10 ^ (i.params.length + 2)]) (w : Word) : FieldsAgree n' { f with w := w } i := by
  obtain ⟨hmode, hword⟩ := h
  refine ⟨fun j q hq => ?_, hword⟩
  obtain ⟨hj, -⟩ := List.getElem?_eq_some_iff.mp hq
  rw [hmode j q hq, digit_eq_of_modEq hn (by omega)]

theorem decode_of_low_digits_eq {f : Window} {i : Instr} {w : Word} (h : decode f = .ok i) (h0 : 0 ≤ w.toInt)
    (hw : w.toInt % 10 ^ (i.params.length + 2) = f.w.toInt % 10 ^ (i.params.length + 2)) :
    decode { f with w := w } = .ok i := by
  obtain ⟨hf0, ho, hfields⟩ := decode_eq_ok_iff.mp h
  have hn := toNat_modEq_of_emod_eq hf0 h0 hw
  have hlow : w.toInt.toNat % 100 = f.w.toInt.toNat % 100 := hn.of_dvd (pow_dvd_pow 10 (Nat.le_add_left 2 _))
  exact decode_eq_ok_iff.mpr ⟨h0, hlow.trans ho, hfields.of_modEq hn w⟩

/-! ### Encoding (R75) -/

theorem encodeWord_toInt (i : Instr) : (encodeWord i).toInt = (i.opcode + modeDigits 100 i.params : Nat) := by
  cases i with
  | add a b dst => exact Laws.EncodeWordIsExact.add a b dst
  | mul a b dst => exact Laws.EncodeWordIsExact.mul a b dst
  | inp dst => exact Laws.EncodeWordIsExact.inp dst
  | out a => exact Laws.EncodeWordIsExact.out a
  | jt a target => exact Laws.EncodeWordIsExact.jt a target
  | jf a target => exact Laws.EncodeWordIsExact.jf a target
  | lt a b dst => exact Laws.EncodeWordIsExact.lt a b dst
  | eq a b dst => exact Laws.EncodeWordIsExact.eq a b dst
  | arb a => exact Laws.EncodeWordIsExact.arb a
  | hlt => exact Laws.EncodeWordIsExact.hlt

theorem dvd_modeDigits : ∀ (weight : Nat) (qs : List (Access × Param)), weight ∣ modeDigits weight qs
  | _, [] => dvd_zero _
  | weight, _ :: qs => (dvd_mul_right weight _).add ((dvd_mul_left weight 10).trans (dvd_modeDigits (10 * weight) qs))

/-- The mode digits stand, in order, above the `m` digits of `r`. -/
theorem digit_add_modeDigits : ∀ {qs : List (Access × Param)} {r m j : Nat} {q : Access × Param}, r < 10 ^ m →
    qs[j]? = some q → digit (r + modeDigits (10 ^ m) qs) (m + j) = q.2.mode.digit
  | (x, p) :: qs, r, m, 0, q, hr, hq => by
    obtain rfl : (x, p) = q := by simpa using hq
    obtain ⟨c, hc⟩ := dvd_modeDigits (10 * 10 ^ m) qs
    have hsum : r + modeDigits (10 ^ m) ((x, p) :: qs) = r + 10 ^ m * (p.mode.digit + 10 * c) := by
      rw [modeDigits, hc]; ring
    have hd := p.mode.digit_le
    rw [hsum, digit, Nat.add_zero, Nat.add_mul_div_left _ _ (by positivity), Nat.div_eq_of_lt hr, Nat.zero_add,
      Nat.add_mul_mod_self_left]
    exact Nat.mod_eq_of_lt (by omega)
  | (x, p) :: qs, r, m, j + 1, q, hr, hq => by
    have hd := p.mode.digit_le
    have hr' : r + 10 ^ m * p.mode.digit < 10 ^ (m + 1) := by
      calc r + 10 ^ m * p.mode.digit < 10 ^ m + 10 ^ m * 9 := add_lt_add_of_lt_of_le hr (Nat.mul_le_mul_left _ hd)
        _ = 10 ^ (m + 1) := by ring
    have hsum : r + modeDigits (10 ^ m) ((x, p) :: qs) =
        r + 10 ^ m * p.mode.digit + modeDigits (10 ^ (m + 1)) qs := by
      rw [modeDigits, pow_succ', add_assoc]
    rw [hsum, show m + (j + 1) = m + 1 + j by omega]
    exact digit_add_modeDigits hr' (by simpa using hq)

theorem add_modeDigits_mod_hundred {op : Nat} (h : op < 100) (qs : List (Access × Param)) :
    (op + modeDigits 100 qs) % 100 = op := by
  obtain ⟨c, hc⟩ := dvd_modeDigits 100 qs
  omega

/-- R64: up to three words after the instruction word are the first words of the window. -/
theorem take_ofWords (w : Word) (rest : List Word) : ∀ {ws : List Word}, ws.length ≤ 3 →
    let f := Window.ofWords (w :: ws ++ rest)
    [f.p1, f.p2, f.p3].take ws.length = ws
  | [], _ => rfl
  | [_], _ => rfl
  | [_, _], _ => rfl
  | [_, _, _], _ => rfl
  | _ :: _ :: _ :: _ :: _, h => absurd h (by simp)

theorem fieldsAgree_encode (i : Instr) (rest : List Word) :
    FieldsAgree (i.opcode + modeDigits 100 i.params) (Window.ofWords (encode i ++ rest)) i := by
  constructor
  · intro j q hq
    rw [Nat.add_comm j 2]
    exact (digit_add_modeDigits (m := 2) i.opcode_lt hq).symm
  · have hlen : (i.params.map fun q => q.2.word).length ≤ 3 := by simpa using i.params_length_le
    simpa [encode] using (take_ofWords (encodeWord i) rest hlen).symm

/-- Settles O1: the encoder writes the opcode, the mode digits and the parameter words where the decoder reads them. -/
theorem decodingAnEncodedInstructionGivesItBack : Obligations.DecodingAnEncodedInstructionGivesItBack := by
  intro i rest
  have hw : (Window.ofWords (encode i ++ rest)).w.toInt = (i.opcode + modeDigits 100 i.params : Nat) :=
    encodeWord_toInt i
  rw [decode_eq_ok_iff, hw, Int.toNat_natCast]
  exact ⟨Int.natCast_nonneg _, add_modeDigits_mod_hundred i.opcode_lt _, fieldsAgree_encode i rest⟩

/-- R65: digits written above those of an encoding are ignored. -/
theorem decode_encode_with_higher_digits (i : Instr) (rest : List Word) {w : Word} (h : Nat)
    (hw : w.toInt = (i.opcode + modeDigits 100 i.params + 10 ^ (i.params.length + 2) * h : Nat)) :
    decode { Window.ofWords (encode i ++ rest) with w := w } = .ok i := by
  refine decode_of_low_digits_eq (decodingAnEncodedInstructionGivesItBack i rest) (hw ▸ Int.natCast_nonneg _) ?_
  have henc : (Window.ofWords (encode i ++ rest)).w.toInt = (i.opcode + modeDigits 100 i.params : Nat) :=
    encodeWord_toInt i
  rw [hw, henc]
  push_cast
  rw [Int.add_mul_emod_self_left]

/-- Settles O3: the fields do not reach the higher digits; 1099 and 10104 are the encodings 99 and 104 with a digit above
them. -/
theorem higherDigitsAreIgnored : Obligations.HigherDigitsAreIgnored :=
  ⟨fun _ _ _ => decode_of_low_digits_eq,
    fun p1 p2 p3 => decode_encode_with_higher_digits .hlt [p1, p2, p3] 10 (by decide),
    fun p1 p2 p3 => decode_encode_with_higher_digits (.out ⟨.immediate, p1⟩) [p2, p3] 10
      (by simp [Instr.opcode, Instr.params, modeDigits, Mode.digit])⟩

/-- Settles O5: each word is evaluated. -/
theorem wordsOfTheSpecDecode : Obligations.WordsOfTheSpecDecode := ⟨rfl, rfl, rfl, rfl, rfl, rfl⟩

end Sys2Proof

namespace Sys2Proof.Machine

/-! ### Words the fetch refuses (R66, R71) -/

theorem decode_of_illegal {f : Window} (h : f.w.toInt < 0 ∨ f.w.toInt % 100 ∉ [1, 2, 3, 4, 5, 6, 7, 8, 9, 99]) :
    decode f = .error .invalidOpcode := by
  rcases lt_or_ge f.w.toInt 0 with hneg | h0
  · exact decode_of_neg hneg
  · rw [decode_of_nonneg h0]
    refine decodeOpcode_illegal f fun hmem => ?_
    have hop := h.resolve_left (not_lt.mpr h0)
    simp only [List.mem_cons, List.not_mem_nil, or_false] at hmem hop
    omega

/-- Settles O4: the decoder refuses the word fetched, which beyond the extent is 0. -/
theorem illegalWordsRaiseInvalidOpcode : Obligations.IllegalWordsRaiseInvalidOpcode := by
  intro s hr
  have illegal (h : (s.read s.ip).toInt < 0 ∨ (s.read s.ip).toInt % 100 ∉ [1, 2, 3, 4, 5, 6, 7, 8, 9, 99]) :
      step s = .next (failedState s ⟨.invalidOpcode, 0, (s.read s.ip).toInt⟩) :=
    step_eq_next.mpr ⟨hr, .inl ⟨decode_of_illegal (f := fetch s) h, rfl⟩⟩
  refine ⟨illegal, fun hx => ?_⟩
  have hzero : s.read s.ip = 0 := State.read_beyond hx
  rw [hzero] at illegal
  exact illegal (.inr (by decide))

/-! ### Illegal mode digits (R67, R72) -/

/-- R67: the mode digit is legal for the use of the parameter. -/
def modeLegal (q : Access × Param) : Bool :=
  match q.1 with
  | .read => q.2.mode.readable
  | .write => q.2.mode.writable

theorem wf_iff {i : Instr} : i.wf = true ↔ ∀ q ∈ i.params, modeLegal q = true := by
  cases i <;> simp [Instr.wf, Instr.params, modeLegal, and_assoc]

theorem modeLegal_of_resolves {s : State} {k : Fin 4} {q : Access × Param} (h : ParamResolves s k q) :
    modeLegal q = true := by
  obtain ⟨x, m, w⟩ := q
  cases x with
  | read =>
    obtain ⟨v, -, h⟩ := h
    cases m with
    | unassigned _ => exact h.elim
    | _ => rfl
  | write =>
    obtain ⟨d, -, -, h⟩ := h
    cases m with
    | position => rfl
    | relative => rfl
    | _ => exact h.elim

/-- R72: a parameter raises InvalidOperand for an illegal mode digit alone. -/
theorem not_modeLegal_of_invalidOperand {s : State} {k : Fin 4} {q : Access × Param} {e : Raise}
    (h : ParamFails s k q e) (he : e.error = .invalidOperand) : modeLegal q = false := by
  obtain ⟨x, m, w⟩ := q
  cases x with
  | read =>
    cases m with
    | unassigned _ => rfl
    | position => rcases h with ⟨-, rfl⟩ | ⟨-, -, rfl⟩ <;> cases he
    | immediate => obtain ⟨-, rfl⟩ := h; cases he
    | relative => rcases h with ⟨-, rfl⟩ | ⟨-, -, rfl⟩ | ⟨-, -, -, rfl⟩ <;> cases he
  | write =>
    cases m with
    | unassigned _ => rfl
    | immediate => rfl
    | position => rcases h with ⟨-, rfl⟩ | ⟨-, -, rfl⟩ | ⟨-, -, -, rfl⟩ <;> cases he
    | relative => rcases h with ⟨-, rfl⟩ | ⟨-, -, rfl⟩ | ⟨-, -, -, rfl⟩ | ⟨-, -, -, -, rfl⟩ <;> cases he

/-- R93: the first parameter error is the error of one of the parameters. -/
theorem exists_paramFails_of_first {s : State} {e : Raise} : ∀ {n : Nat} {qs : List (Access × Param)},
    FirstParamError s n qs e → ∃ q ∈ qs, ∃ k, ParamFails s k q e
  | _, [], h => h.elim
  | _, q :: _, .inl h => ⟨q, List.mem_cons_self, _, h⟩
  | _, _ :: _, .inr ⟨_, h⟩ =>
    let ⟨q, hq, hf⟩ := exists_paramFails_of_first h
    ⟨q, List.mem_cons_of_mem _ hq, hf⟩

/-- R93: an instruction has an effect only where all its parameters resolve. -/
theorem params_resolve_of_effect {i : Instr} {s : State} {e : Effect} (h : effectOf i s = .ok e) :
    ∀ q ∈ i.params, ∃ k, ParamResolves s k q := by
  have three {f : Word → Word → Except Raise Word} {a b dst : Param} (h : threeParams f a b dst s = .ok e) :
      ∀ q ∈ [(Access.read, a), (.read, b), (.write, dst)], ∃ k, ParamResolves s k q := by
    obtain ⟨x, y, d, _, hx, hy, hd, -⟩ := threeParams_eq_ok.mp h
    simp only [List.forall_mem_cons]
    exact ⟨⟨1, x, hx⟩, ⟨2, y, hy⟩, ⟨3, d, hd⟩, List.forall_mem_nil _⟩
  have jump {c : Word → Bool} {a target : Param} (h : jumpEffect c a target s = .ok e) :
      ∀ q ∈ [(Access.read, a), (.read, target)], ∃ k, ParamResolves s k q := by
    obtain ⟨x, y, hx, hy, -⟩ := jumpEffect_eq_ok.mp h
    simp only [List.forall_mem_cons]
    exact ⟨⟨1, x, hx⟩, ⟨2, y, hy⟩, List.forall_mem_nil _⟩
  cases i with
  | add a b dst => exact three h
  | mul a b dst => exact three h
  | lt a b dst => exact three h
  | eq a b dst => exact three h
  | jt a target => exact jump h
  | jf a target => exact jump h
  | inp dst =>
    obtain ⟨d, _, _, hd, -⟩ := inputEffect_eq_ok.mp h
    exact List.forall_mem_singleton.mpr ⟨1, d, hd⟩
  | out a =>
    obtain ⟨x, hx, -⟩ := outputEffect_eq_ok.mp h
    exact List.forall_mem_singleton.mpr ⟨1, x, hx⟩
  | arb a =>
    obtain ⟨x, hx, -⟩ := baseEffect_eq_ok.mp h
    exact List.forall_mem_singleton.mpr ⟨1, x, hx⟩
  | hlt => exact List.forall_mem_nil _

theorem wf_of_effect {i : Instr} {s : State} {e : Effect} (h : effectOf i s = .ok e) : i.wf = true :=
  wf_iff.mpr fun q hq =>
    let ⟨_, hr⟩ := params_resolve_of_effect h q hq
    modeLegal_of_resolves hr

/-- R67, R72: an instruction that raises InvalidOperand is ill-formed. -/
theorem not_wf_of_invalidOperand {i : Instr} {s : State} {e : Raise} (h : effectOf i s = .error e)
    (he : e.error = .invalidOperand) : i.wf ≠ true := by
  obtain hp | ⟨h, -⟩ | ⟨h, -⟩ | ⟨h, -⟩ := effectOf_error h
  · obtain ⟨q, hq, k, hf⟩ := exists_paramFails_of_first hp
    intro hwf
    exact absurd (wf_iff.mp hwf q hq) (by simp [not_modeLegal_of_invalidOperand hf he])
  all_goals rw [he] at h; cases h

theorem commit_cause (e : Effect) (s : State) : (commit e s).status.cause = s.status.cause := by
  rw [commit_status]
  split <;> rfl

/-- Settles O21: a commit needs a well-formed instruction and leaves the cause; InvalidOperand needs an ill-formed one. -/
theorem illFormedInstructionsExactlyFail : Obligations.IllFormedInstructionsExactlyFail := by
  intro i s t _ hc h
  obtain ⟨e, he, rfl⟩ | ⟨e, he, rfl⟩ := exec_eq_next.mp h
  · refine ⟨fun hwf => absurd (wf_of_effect he) (by simp [hwf]), fun _ => ?_⟩
    rw [commit_cause, hc]
    exact nofun
  · exact ⟨fun _ => rfl, fun hwf hcause => not_wf_of_invalidOperand he (Option.some.inj hcause) hwf⟩

/-! ### Pseudo-instructions (R77) -/

theorem readsAs_immediate {s : State} {k : Fin 4} {n : Int} (w : Word) (h : (s.ip : Int) + n ≤ wmax)
    (hk : (k.val : Int) ≤ n) : ReadsAs s k ⟨.immediate, w⟩ w := ⟨(Int.add_le_add_left hk _).trans h, rfl⟩

/-- A storing instruction whose checks all pass stores its value. -/
theorem exec_memorySet {i : Instr} {s : State} {k : Fin 4} {p : Param} {d : Nat} {v : Int} (hm : s.mem.wf = true)
    (hp : storeParam i = some (k, p)) (hd : TargetIs s k p d) (hs : StoresValue s v i) (hv : InRange v)
    (hn : (s.ip : Int) + i.length ≤ wmax) : ∃ t, exec i s = .next t ∧ MemorySet s t d v := by
  obtain ⟨e, he, hstore, -⟩ := effectOf_stores hp hd hs hv hn
  have hmem : (commit e s).mem = s.mem.write d (Word.ofInt v) := by rw [commit_mem, hstore]
  refine ⟨commit e s, exec_of_effect he, ?_⟩
  simpa only [toInt_ofInt hv] using memorySet_write hm hmem

theorem exec_pseudoNop {s : State} (h : (s.ip : Int) + 2 ≤ wmax) :
    exec pseudoNop s = .next { s with ip := s.ip + 2 } := by
  have hrb : s.rb.toInt + (0 : Word).toInt = s.rb.toInt := Int.add_zero _
  have he : effectOf pseudoNop s = .ok { base := some s.rb, control := .goto (s.ip + 2) } := by
    refine baseEffect_eq_ok.mpr ⟨0, readsAs_immediate 0 h (by decide), ?_, by omega, ?_⟩
    · rw [hrb]
      exact inRange_toInt s.rb
    · rw [hrb, Word.ofInt, BitVec.ofInt_toInt]
  exact exec_of_effect he

theorem exec_pseudoJmp {s : State} {target : Param} {y : Word} (hy : ReadsAs s 2 target y) (h0 : 0 ≤ y.toInt) :
    exec (pseudoJmp target) s = .next { s with ip := y.toInt.toNat } := by
  have ⟨hip, _⟩ := hy
  have he : effectOf (pseudoJmp target) s = .ok { control := .goto y.toInt.toNat } :=
    jumpEffect_eq_ok.mpr ⟨1, y, readsAs_immediate 1 hip (by decide), hy, .inl ⟨rfl, h0, rfl⟩⟩
  exact exec_of_effect he

section Storing
variable {s : State} {src dst : Param} {x : Word} {d : Nat} (hx : ReadsAs s 1 src x) (hd : TargetIs s 3 dst d)
include hx hd

theorem exec_pseudoMov (hm : s.mem.wf = true) (hn : (s.ip : Int) + 4 ≤ wmax) :
    ∃ t, exec (pseudoMov src dst) s = .next t ∧ MemorySet s t d x.toInt :=
  exec_memorySet hm rfl hd ⟨x, 0, hx, readsAs_immediate 0 hn (by decide), (Int.add_zero _).symm⟩ (inRange_toInt x) hn

theorem exec_pseudoNeg (hm : s.mem.wf = true) (hn : (s.ip : Int) + 4 ≤ wmax) (hmin : x.toInt ≠ wmin) :
    ∃ t, exec (pseudoNeg src dst) s = .next t ∧ MemorySet s t d (-x.toInt) := by
  have hv : InRange (-x.toInt) := by
    have hr := inRange_toInt x
    simp only [InRange, wmin, wmax] at hr hmin ⊢
    omega
  have hprod : -x.toInt = x.toInt * (Word.ofInt (-1)).toInt := by rw [toInt_ofInt (by decide)]; ring
  exact exec_memorySet hm rfl hd ⟨x, Word.ofInt (-1), hx, readsAs_immediate _ hn (by decide), hprod⟩ hv hn

theorem exec_pseudoNeg_wmin (hn : (s.ip : Int) + 4 ≤ wmax) (hmin : x.toInt = wmin) :
    exec (pseudoNeg src dst) s = .next (failedState s ⟨.arithmeticOverflow, 0, 9223372036854775808⟩) := by
  have hprod : x.toInt * (Word.ofInt (-1)).toInt = 9223372036854775808 := by rw [hmin]; decide
  have he : effectOf (pseudoNeg src dst) s = .error ⟨.arithmeticOverflow, 0, 9223372036854775808⟩ := by
    refine threeParams_eq_error.mpr (.inr ⟨x, Word.ofInt (-1), d, hx, readsAs_immediate _ hn (by decide), hd, .inl ?_⟩)
    rw [hprod]
    exact checkedWord_eq_error.mpr ⟨by decide, rfl⟩
  exact exec_of_error he

end Storing

theorem length_eq_one_iff (i : Instr) : i.length = 1 ↔ i = .hlt := by
  cases i <;> simp [Instr.length, Instr.params]

/-- Settles O44: the expansions are the definitions; the effects are those of `arb`, `jt`, `add` and `mul` on the
immediate operands. -/
theorem pseudoInstructionsExpandAsGiven : Obligations.PseudoInstructionsExpandAsGiven :=
  ⟨fun _ _ => rfl, fun _ => rfl, fun _ _ => rfl, rfl, by decide, fun _ => exec_pseudoNop,
    fun _ _ _ => exec_pseudoJmp,
    fun _ _ _ _ _ hm hx hd hn =>
      ⟨exec_pseudoMov hx hd hm hn, exec_pseudoNeg hx hd hm hn, exec_pseudoNeg_wmin hx hd hn⟩,
    rfl, length_eq_one_iff⟩

end Sys2Proof.Machine
end

section
/-! SUPPORT. The execution cycle (40_execution_cycle.md): which states have a step, how a step ends, what an instruction
leaves unchanged, and how runs continue. -/

namespace Sys2Proof.Machine

/-! ### The states that have a step (R90 to R92, R104) -/

/-- Settles O6: in RUNNING, `step` goes by what the decoder answers alone. -/
theorem stepRunsTheDecodedInstruction : Obligations.StepRunsTheDecodedInstruction := by
  intro s i hr hd
  simp only [step, hr, hd]

theorem running_of_step {s t : State} (h : step s = .next t) : s.status.state = .running := (step_eq_next.mp h).1

theorem exists_exec (i : Instr) (s : State) : ∃ t, exec i s = .next t := by
  cases he : effectOf i s with
  | ok e => exact ⟨_, exec_of_effect he⟩
  | error e => exact ⟨_, exec_of_error he⟩

theorem exists_step_of_running {s : State} (hr : s.status.state = .running) : ∃ t, step s = .next t := by
  cases hd : decode (fetch s) with
  | error r => cases r; exact ⟨_, step_eq_next.mpr ⟨hr, .inl ⟨hd, rfl⟩⟩⟩
  | ok i =>
    obtain ⟨t, ht⟩ := exists_exec i s
    exact ⟨t, step_eq_next.mpr ⟨hr, .inr ⟨i, hd, ht⟩⟩⟩

theorem commit_state_eq_or_halted (e : Effect) (s : State) :
    (commit e s).status.state = s.status.state ∨ (commit e s).status.state = .halted := by
  rw [commit_status]
  split
  · exact .inl rfl
  · exact .inr rfl

/-- R102: the state after a step is RUNNING, HALTED or FAILED. -/
theorem step_state_ne_loaded {s t : State} (h : step s = .next t) : t.status.state ≠ .loaded := by
  obtain ⟨hr, ⟨-, rfl⟩ | ⟨_, e, -, -, rfl⟩ | ⟨_, _, -, -, rfl⟩⟩ := step_cases h
  · exact nofun
  · obtain hs | hs := commit_state_eq_or_halted e s <;> simp [hs, hr]
  · exact nofun

/-- Settles O7: the decoder answers an error or an instruction, and each has a next state. -/
theorem stepExistsExactlyWhileRunning : Obligations.StepExistsExactlyWhileRunning := by
  intro s
  refine ⟨fun hr => ?_, fun hr t ht => hr (running_of_step ht)⟩
  obtain ⟨t, ht⟩ := exists_step_of_running hr
  exact ⟨t, ht, step_state_ne_loaded ht⟩

/-! ### How a step ends (R98, R102, R151) -/

/-- R98, R183: a step that ends in FAILED has taken an error, and done nothing else. -/
theorem eq_failedState_of_step {s t : State} (h : step s = .next t) (ht : t.status.state = .failed) :
    ∃ e, t = failedState s e := by
  obtain ⟨hr, ⟨-, rfl⟩ | ⟨_, e, -, -, rfl⟩ | ⟨_, e, -, -, rfl⟩⟩ := step_cases h
  · exact ⟨_, rfl⟩
  · exact absurd ht (commit_state_ne_failed (by simp [hr]) e)
  · exact ⟨e, rfl⟩

/-- Settles O18: the state of the error differs from the state before it in STATUS alone. -/
theorem errorsArePrecise : Obligations.ErrorsArePrecise := by
  intro s t h ht
  obtain ⟨e, rfl⟩ := eq_failedState_of_step h ht
  exact ⟨rfl, rfl, rfl, rfl, rfl, rfl, nofun, rfl, rfl⟩

/-- R62, R70: which words are `hlt`; it has no fields but the opcode. -/
theorem decode_eq_hlt_iff {f : Window} : decode f = .ok .hlt ↔ 0 ≤ f.w.toInt ∧ f.w.toInt % 100 = 99 := by
  have hfields : FieldsAgree f.w.toInt.toNat f .hlt := fieldsAgree_iff.mpr rfl
  rw [decode_eq_ok_iff, Instr.opcode]
  constructor
  · rintro ⟨h0, ho, -⟩
    exact ⟨h0, by omega⟩
  · rintro ⟨h0, ho⟩
    exact ⟨h0, by omega, hfields⟩

theorem commit_halted_iff {i : Instr} {s : State} {e : Effect} (hr : s.status.state = .running)
    (he : effectOf i s = .ok e) : (commit e s).status.state = .halted ↔ i = .hlt := by
  rw [commit_status]
  obtain ⟨rfl, hc⟩ | ⟨hi, _, hc, -⟩ := effectOf_control he
  · simp [hc]
  · simp [hc, hr, hi]

/-- R151: the steps that halt are those of `hlt`. -/
theorem step_halted_iff {s t : State} (h : step s = .next t) :
    t.status.state = .halted ↔ decode (fetch s) = .ok .hlt := by
  obtain ⟨hr, ⟨hd, rfl⟩ | ⟨i, e, hd, he, rfl⟩ | ⟨i, e, hd, he, rfl⟩⟩ := step_cases h
  · simp [hd, failedState]
  · rw [commit_halted_iff hr he, hd, Except.ok.injEq]
  · have hi : i ≠ .hlt := by rintro rfl; cases he
    simp [hd, hi, failedState]

/-- Settles O20: a step halts exactly at a `hlt`, and the word at `ip` decodes to `hlt` exactly by its opcode. -/
theorem onlyOpcode99Halts : Obligations.OnlyOpcode99Halts := fun _ _ h => (step_halted_iff h).trans decode_eq_hlt_iff

/-! ### What an instruction leaves unchanged (R23, R43, R97) -/

section Frame
variable {i : Instr} {s t : State} (h : exec i s = .next t)
include h

theorem exec_cfg : t.cfg = s.cfg := by
  obtain ⟨e, -, rfl⟩ | ⟨_, -, rfl⟩ := exec_eq_next.mp h
  · exact commit_cfg e s
  · rfl

theorem exec_rb_of_ne_arb (hi : ∀ a, i ≠ .arb a) : t.rb = s.rb := by
  obtain ⟨e, he, rfl⟩ | ⟨_, -, rfl⟩ := exec_eq_next.mp h
  · obtain hb | ⟨a, rfl⟩ := effectOf_base he
    · rw [commit_rb, hb]
    · exact absurd rfl (hi a)
  · rfl

theorem exec_input_of_ne_inp (hi : ∀ dst, i ≠ .inp dst) : t.input = s.input := by
  obtain ⟨e, he, rfl⟩ | ⟨_, -, rfl⟩ := exec_eq_next.mp h
  · obtain ⟨hio, -⟩ | ⟨dst, _, _, _, rfl, -⟩ | ⟨_, _, -, -, hio⟩ := effectOf_io he
    · rw [commit_input, hio]
    · exact absurd rfl (hi dst)
    · rw [commit_input, hio]
  · rfl

theorem exec_output_of_ne_out (hi : ∀ a, i ≠ .out a) : t.output = s.output := by
  obtain ⟨e, he, rfl⟩ | ⟨_, -, rfl⟩ := exec_eq_next.mp h
  · obtain ⟨hio, -⟩ | ⟨_, _, _, _, -, -, -, hio, -⟩ | ⟨a, _, rfl, -⟩ := effectOf_io he
    · rw [commit_output, hio]
    · rw [commit_output, hio]
    · exact absurd rfl (hi a)
  · rfl

theorem exec_status_of_ne_hlt (hi : i ≠ .hlt) : t.status = s.status ∨ t.status.state = .failed := by
  obtain ⟨e, he, rfl⟩ | ⟨_, -, rfl⟩ := exec_eq_next.mp h
  · obtain ⟨hh, -⟩ | ⟨-, _, hc, -⟩ := effectOf_control he
    · exact absurd hh hi
    · exact .inl (by rw [commit_status, hc])
  · exact .inr rfl

theorem exec_mem_of_storeParam_none (hp : storeParam i = none) : t.mem = s.mem := by
  obtain ⟨e, he, rfl⟩ | ⟨_, -, rfl⟩ := exec_eq_next.mp h
  · have hstore : e.store = none := by simpa only [hp] using effectOf_store he
    rw [commit_mem, hstore]
  · rfl

/-- R43, R97: memory changes only by one store, at the address of the write target. -/
theorem exec_mem_of_storeParam {k : Fin 4} {p : Param} (hp : storeParam i = some (k, p)) :
    t.mem = s.mem ∨ ∃ d r, writeParam s k p = .ok d ∧ t.mem = s.mem.write d r := by
  obtain ⟨e, he, rfl⟩ | ⟨_, -, rfl⟩ := exec_eq_next.mp h
  · obtain ⟨d, r, ht, hstore⟩ : ∃ d r, TargetIs s k p d ∧ e.store = some (d, r) := by
      simpa only [hp] using effectOf_store he
    exact .inr ⟨d, r, writeParam_eq_ok.mpr ht, by rw [commit_mem, hstore]⟩
  · exact .inl rfl

end Frame

/-- Settles O28: memory by its one store, and each other part by its own frame rule. -/
theorem frameOfTheStoringInstructions : Obligations.FrameOfTheStoringInstructions := by
  intro i s t k p hm hp h
  have hmem := exec_mem_of_storeParam h hp
  have harb : ∀ a, i ≠ .arb a := by rintro a rfl; cases hp
  have hout : ∀ a, i ≠ .out a := by rintro a rfl; cases hp
  have hhlt : i ≠ .hlt := by rintro rfl; cases hp
  refine ⟨fun d hd a had => ?_, fun e he => ?_, exec_cfg h, exec_rb_of_ne_arb h harb, exec_output_of_ne_out h hout,
    exec_input_of_ne_inp h, exec_status_of_ne_hlt h hhlt⟩
  · obtain hmem | ⟨d', r, hd', hmem⟩ := hmem
    · rw [hmem]
    · obtain rfl : d = d' := Except.ok.inj (hd.symm.trans hd')
      rw [hmem, Memory.read_write_other hm had]
  · obtain hmem | ⟨d, _, hd, -⟩ := hmem
    · exact hmem
    · cases he.symm.trans hd

/-- Settles O29: each part by its own frame rule; `in` has a write target, so it is none of these instructions. -/
theorem frameOfTheOtherInstructions : Obligations.FrameOfTheOtherInstructions := by
  intro i s t hp h
  have hinp : ∀ dst, i ≠ .inp dst := by rintro dst rfl; cases hp
  exact ⟨exec_mem_of_storeParam_none h hp, exec_cfg h, exec_input_of_ne_inp h hinp, exec_rb_of_ne_arb h,
    exec_output_of_ne_out h, exec_status_of_ne_hlt h⟩

/-! ### Runs (R101, R103, R104) -/

theorem runFor_add (n m : Nat) : ∀ s, runFor (n + m) s = runFor m (runFor n s) := by
  induction n with
  | zero => exact fun s => by rw [Nat.zero_add, runFor]
  | succ n ih =>
    intro s
    by_cases hst : ∃ t, step s = .next t
    · obtain ⟨t, ht⟩ := hst
      rw [Nat.succ_add, runFor_of_step ht, runFor_of_step ht, ih]
    · have hno : ∀ t, step s ≠ .next t := not_exists.mp hst
      simp only [runFor_of_no_step hno]

/-- R104, R168: a state that shows a result has no step. -/
theorem no_step_of_runResult {s : State} (h : runResult s ≠ .notEnded) (t : State) : step s ≠ .next t :=
  fun ht => h (by rw [runResult, running_of_step ht])

/-- Settles O41: by induction on the first steps, and because a state that shows a result has no step. -/
theorem runsContinueUntilTheyEnd : Obligations.RunsContinueUntilTheyEnd := fun s n m =>
  ⟨runFor_add n m s, fun hend => (runFor_add n m s).trans (runFor_of_no_step (no_step_of_runResult hend) m)⟩

end Sys2Proof.Machine
end

section
/-! SUPPORT. Arithmetic (41_arithmetic.md), and before it what holds of every instruction of format F3RRW: its encoding
line, the order of its errors, its store. -/

namespace Sys2Proof.Machine

/-! ### The encoding line of format F3RRW (R67, R75) -/

theorem readable_iff_digit (m : Mode) : m.readable = true ↔ m.digit ∈ [0, 1, 2] := by
  cases m with
  | unassigned k => simp [Mode.readable, Mode.digit]
  | _ => decide

theorem writable_iff_digit (m : Mode) : m.writable = true ↔ m.digit ∈ [0, 2] := by
  cases m with
  | unassigned k => simp [Mode.writable, Mode.digit]
  | _ => decide

/-- The opcode and the parameters of an instruction say how it is encoded and decoded. -/
theorem encodedF3RRW_of_params {mk : Param → Param → Param → Instr} {op : Nat}
    (hop : ∀ a b dst, (mk a b dst).opcode = op)
    (hparams : ∀ a b dst, (mk a b dst).params = [(.read, a), (.read, b), (.write, dst)]) : EncodedF3RRW mk op := by
  intro a b dst
  have hsum : (mk a b dst).opcode + modeDigits 100 (mk a b dst).params =
      op + 100 * a.mode.digit + 1000 * b.mode.digit + 10000 * dst.mode.digit := by
    rw [hop, hparams]
    simp only [modeDigits]
    ring
  have hwords : encode (mk a b dst) = [encodeWord (mk a b dst), a.word, b.word, dst.word] := by
    rw [encode, hparams]
    rfl
  refine ⟨?_, ?_, fun w h hw => ?_⟩
  · rw [hwords, encodeWord, hsum, Word.ofInt, ← BitVec.ofInt_natCast]
    push_cast
    rfl
  · rw [wf_iff, hparams]
    simp [modeLegal, readable_iff_digit, writable_iff_digit]
  · have hd := decode_encode_with_higher_digits (mk a b dst) [] (w := w) h (by
      rw [hsum, hparams, hw]
      push_cast [List.length]
      norm_num)
    rwa [hwords] at hd

/-! ### The execute part of format F3RRW (R93, R97) -/

theorem memorySet_commit {s : State} {e : Effect} {d : Nat} {v : Int} (hm : s.mem.wf = true)
    (he : e.store = some (d, Word.ofInt v)) (hv : InRange v) : MemorySet s (commit e s) d v := by
  have hmem : (commit e s).mem = s.mem.write d (Word.ofInt v) := by rw [commit_mem, he]
  simpa only [toInt_ofInt hv] using memorySet_write hm hmem

section F3RRW
variable {mk : Param → Param → Param → Instr} {f : Int → Int → Int} {g : Word → Word → Except Raise Word}
  (heff : ∀ a b dst s, effectOf (mk a b dst) s = threeParams g a b dst s)
include heff

theorem takesParamErrors_of_threeParams
    (hparams : ∀ a b dst, (mk a b dst).params = [(.read, a), (.read, b), (.write, dst)]) (s : State)
    (a b dst : Param) : TakesParamErrors (mk a b dst) s := by
  intro e h
  rw [hparams] at h
  exact exec_of_error ((heff a b dst s).trans (threeParams_eq_error.mpr (.inl h)))

/-- An instruction whose computation answers the word of `f x y` wherever that is a word. -/
theorem storesResult_of_threeParams
    (hg : ∀ x y : Word, InRange (f x.toInt y.toInt) → g x y = .ok (Word.ofInt (f x.toInt y.toInt))) :
    StoresResult mk f := by
  intro s a b dst x y d hm hx hy hd hv
  refine ⟨fun hn => ?_, fun hn => ?_⟩
  · have he : threeParams g a b dst s = .error ⟨.arithmeticOverflow, 0, (s.ip : Int) + 4⟩ :=
      threeParams_eq_error.mpr (.inr ⟨x, y, d, hx, hy, hd, .inr ⟨_, hg x y hv, by omega, rfl⟩⟩)
    exact exec_of_error ((heff a b dst s).trans he)
  · have he : threeParams g a b dst s =
        .ok { store := some (d, Word.ofInt (f x.toInt y.toInt)), control := .goto (s.ip + 4) } :=
      threeParams_eq_ok.mpr ⟨x, y, d, _, hx, hy, hd, hg x y hv, by omega, rfl⟩
    exact ⟨_, exec_of_effect ((heff a b dst s).trans he), memorySet_commit hm rfl hv, rfl, rfl, rfl, rfl, rfl, rfl⟩

/-- An instruction whose computation raises ArithmeticOverflow wherever `f x y` is no word. -/
theorem resultOverflows_of_threeParams
    (hg : ∀ x y : Word, ¬ InRange (f x.toInt y.toInt) →
      g x y = .error ⟨.arithmeticOverflow, 0, f x.toInt y.toInt⟩) : ResultOverflows mk f := by
  intro s a b dst x y d hx hy hd hv
  have he := threeParams_eq_error.mpr (.inr ⟨x, y, d, hx, hy, hd, .inl (hg x y hv)⟩)
  exact exec_of_error ((heff a b dst s).trans he)

end F3RRW

/-! ### `add` and `mul` (R109 to R111) -/

/-- R109: an instruction of format F3RRW whose result is the exact value `f x y`, checked to be a word. -/
theorem checkedResult_follows_rule {mk : Param → Param → Param → Instr} {op : Nat} {f : Int → Int → Int}
    (hop : ∀ a b dst, (mk a b dst).opcode = op)
    (hparams : ∀ a b dst, (mk a b dst).params = [(.read, a), (.read, b), (.write, dst)])
    (heff : ∀ a b dst s,
      effectOf (mk a b dst) s = threeParams (fun x y => checkedWord (f x.toInt y.toInt)) a b dst s) :
    EncodedF3RRW mk op ∧ (∀ s a b dst, TakesParamErrors (mk a b dst) s) ∧ StoresResult mk f ∧ ResultOverflows mk f :=
  ⟨encodedF3RRW_of_params hop hparams, takesParamErrors_of_threeParams heff hparams,
    storesResult_of_threeParams heff fun _ _ hv => checkedWord_eq_ok.mpr ⟨hv, rfl⟩,
    resultOverflows_of_threeParams heff fun _ _ hv => checkedWord_eq_error.mpr ⟨hv, rfl⟩⟩

/-- Settles O8: `add` is opcode 1 with the exact sum as its checked result. -/
theorem addFollowsItsRule : Obligations.AddFollowsItsRule :=
  checkedResult_follows_rule (fun _ _ _ => rfl) (fun _ _ _ => rfl) fun _ _ _ _ => rfl

/-- Settles O9: `mul` is opcode 2 with the exact product as its checked result. -/
theorem mulFollowsItsRule : Obligations.MulFollowsItsRule :=
  checkedResult_follows_rule (fun _ _ _ => rfl) (fun _ _ _ => rfl) fun _ _ _ _ => rfl

end Sys2Proof.Machine
end

section
/-! SUPPORT. Input and output (42_io.md): the encoding line of the one-parameter instructions, `in` and `out`, and what a
run does to the two sequences. -/

namespace Sys2Proof.Machine

/-! ### The encoding line of formats F1R and F1W (R67, R75) -/

/-- The opcode and the one parameter of an instruction, with the mode digits legal for its use, say how it is encoded and
decoded. -/
theorem encodedF1_of_params {mk : Param → Instr} {op : Nat} {access : Access} {modes : List Nat}
    (hop : ∀ a, (mk a).opcode = op) (hparams : ∀ a, (mk a).params = [(access, a)])
    (hmodes : ∀ a, modeLegal (access, a) = true ↔ a.mode.digit ∈ modes) : EncodedF1 mk op modes := by
  intro a
  have hsum : (mk a).opcode + modeDigits 100 (mk a).params = op + 100 * a.mode.digit := by
    rw [hop, hparams]
    rfl
  have hwords : encode (mk a) = [encodeWord (mk a), a.word] := by
    rw [encode, hparams]
    rfl
  refine ⟨?_, ?_, fun w p2 p3 h hw => ?_⟩
  · rw [hwords, encodeWord, hsum, Word.ofInt, ← BitVec.ofInt_natCast]
    push_cast
    rfl
  · rw [wf_iff, hparams, List.forall_mem_singleton, hmodes]
  · have hd := decode_encode_with_higher_digits (mk a) [p2, p3] (w := w) h (by
      rw [hsum, hparams, hw]
      push_cast [List.length]
      norm_num)
    rwa [hwords] at hd

/-! ### `in` (R120) -/

theorem takesParamErrors_inp (s : State) (dst : Param) : TakesParamErrors (.inp dst) s := by
  rintro e (h | ⟨-, h⟩)
  · exact exec_of_error (inputEffect_eq_error.mpr (.inl h))
  · exact h.elim

theorem exec_inp_of_empty {s : State} {dst : Param} {d : Nat} (hd : TargetIs s 1 dst d) (hq : s.input = []) :
    exec (.inp dst) s = .next (failedState s ⟨.inputExhausted, 1, 0⟩) :=
  exec_of_error (inputEffect_eq_error.mpr (.inr (.inl ⟨⟨d, hd⟩, hq, rfl⟩)))

theorem exec_inp_of_overflow {s : State} {dst : Param} {d : Nat} (hd : TargetIs s 1 dst d) (hq : s.input ≠ [])
    (hn : wmax < (s.ip : Int) + 2) :
    exec (.inp dst) s = .next (failedState s ⟨.arithmeticOverflow, 0, (s.ip : Int) + 2⟩) :=
  exec_of_error (inputEffect_eq_error.mpr (.inr (.inr ⟨⟨d, hd⟩, hq, by omega, rfl⟩)))

theorem exec_inp_of_head {s : State} {dst : Param} {d : Nat} {v : Word} {q : List Word} (hd : TargetIs s 1 dst d)
    (hq : s.input = v :: q) (hn : (s.ip : Int) + 2 ≤ wmax) :
    exec (.inp dst) s = .next (commit { store := some (d, v), io := .pop, control := .goto (s.ip + 2) } s) :=
  exec_of_effect (inputEffect_eq_ok.mpr ⟨d, v, q, hd, hq, by omega, rfl⟩)

/-- Settles O10: by the three outcomes of `in` once its target resolves: the queue is empty, the successor overflows, or
the head is stored. -/
theorem inFollowsItsRule : Obligations.InFollowsItsRule := by
  refine ⟨encodedF1_of_params (fun _ => rfl) (fun _ => rfl) fun dst => writable_iff_digit dst.mode,
    takesParamErrors_inp, fun s dst d hm hd => ⟨exec_inp_of_empty hd, fun v q hq hn => ?_, fun v q hq hn => ?_⟩⟩
  · exact exec_inp_of_overflow hd (by simp [hq]) hn
  · have htail : s.input.tail = q := by rw [hq, List.tail_cons]
    exact ⟨_, exec_inp_of_head hd hq hn, memorySet_write hm rfl, htail, rfl, rfl, rfl, rfl, rfl⟩

/-! ### `out` (R121) -/

theorem takesParamErrors_out (s : State) (a : Param) : TakesParamErrors (.out a) s := by
  rintro e (h | ⟨-, h⟩)
  · exact exec_of_error (outputEffect_eq_error.mpr (.inl h))
  · exact h.elim

/-- Settles O11: by the two outcomes of `out` once its parameter resolves: the successor overflows, or the operand is
appended. -/
theorem outFollowsItsRule : Obligations.OutFollowsItsRule := by
  refine ⟨encodedF1_of_params (fun _ => rfl) (fun _ => rfl) fun a => readable_iff_digit a.mode,
    takesParamErrors_out, fun s a x hx => ⟨fun hn => ?_, fun hn => ?_⟩⟩
  · exact exec_of_error (outputEffect_eq_error.mpr (.inr ⟨⟨x, hx⟩, by omega, rfl⟩))
  · have he : outputEffect a s = .ok { io := .push x, control := .goto (s.ip + 2) } :=
      outputEffect_eq_ok.mpr ⟨x, hx, by omega, rfl⟩
    exact exec_of_effect (i := .out a) he

/-! ### The two sequences over a run (R26, R27, R122) -/

theorem commit_input_suffix (e : Effect) (s : State) : (commit e s).input <:+ s.input := by
  rw [commit_input]
  split
  · exact List.suffix_rfl
  · exact List.tail_suffix _
  · exact List.suffix_rfl

theorem commit_output_prefix (e : Effect) (s : State) : s.output <+: (commit e s).output := by
  rw [commit_output]
  split
  · exact List.prefix_rfl
  · exact List.prefix_rfl
  · exact List.prefix_append _ _

theorem step_input_suffix {s t : State} (h : step s = .next t) : t.input <:+ s.input := by
  obtain ⟨-, ⟨-, rfl⟩ | ⟨_, e, -, -, rfl⟩ | ⟨_, _, -, -, rfl⟩⟩ := step_cases h
  · exact List.suffix_rfl
  · exact commit_input_suffix e s
  · exact List.suffix_rfl

theorem step_output_prefix {s t : State} (h : step s = .next t) : s.output <+: t.output := by
  obtain h | ⟨_, x, -, -, h⟩ := step_output h
  · rw [h]
  · rw [h]
    exact List.prefix_append _ _

/-- What relates every state to itself, and goes back over a step, relates a state to the end of a run from it. -/
theorem runFor_related {R : State → State → Prop} (hrefl : ∀ s, R s s)
    (hstep : ∀ s t u, step s = .next t → R t u → R s u) (n : Nat) : ∀ s, R s (runFor n s) := by
  induction n with
  | zero => exact hrefl
  | succ n ih =>
    intro s
    by_cases hst : ∃ t, step s = .next t
    · obtain ⟨t, ht⟩ := hst
      rw [runFor_of_step ht]
      exact hstep s t _ ht (ih t)
    · rw [runFor_of_no_step (not_exists.mp hst)]
      exact hrefl s

theorem runFor_input_suffix (n : Nat) : ∀ s, (runFor n s).input <:+ s.input :=
  runFor_related (R := fun s t => t.input <:+ s.input) (fun _ => List.suffix_rfl)
    (fun _ _ _ h hr => hr.trans (step_input_suffix h)) n

theorem runFor_output_prefix (n : Nat) : ∀ s, s.output <+: (runFor n s).output :=
  runFor_related (R := fun s t => s.output <+: t.output) (fun _ => List.prefix_rfl)
    (fun _ _ _ h hr => (step_output_prefix h).trans hr) n

/-- Settles O42: each step leaves a suffix of the queue and extends the output sequence, and so does a run. -/
theorem runsConsumeAPrefixAndAppendOutputs : Obligations.RunsConsumeAPrefixAndAppendOutputs := by
  intro s n
  obtain ⟨consumed, hin⟩ := runFor_input_suffix n s
  obtain ⟨produced, hout⟩ := runFor_output_prefix n s
  exact ⟨consumed, produced, hin.symm, hout.symm⟩

end Sys2Proof.Machine
end

section
/-! SUPPORT. Control transfer (43_jumps.md): the encoding line of format F2RR, and what holds of every instruction of that
format, then `jt` and `jf`, which differ in the opcode and the condition alone. -/

namespace Sys2Proof.Machine

/-! ### The encoding line of format F2RR (R67, R75) -/

/-- The opcode and the two read parameters of an instruction say how it is encoded and decoded. -/
theorem encodedF2RR_of_params {mk : Param → Param → Instr} {op : Nat} (hop : ∀ a target, (mk a target).opcode = op)
    (hparams : ∀ a target, (mk a target).params = [(.read, a), (.read, target)]) : EncodedF2RR mk op := by
  intro a target
  have hsum : (mk a target).opcode + modeDigits 100 (mk a target).params =
      op + 100 * a.mode.digit + 1000 * target.mode.digit := by
    rw [hop, hparams]
    simp only [modeDigits]
    ring
  have hwords : encode (mk a target) = [encodeWord (mk a target), a.word, target.word] := by
    rw [encode, hparams]
    rfl
  refine ⟨?_, ?_, fun w p3 h hw => ?_⟩
  · rw [hwords, encodeWord, hsum, Word.ofInt, ← BitVec.ofInt_natCast]
    push_cast
    rfl
  · rw [wf_iff, hparams]
    simp [modeLegal, readable_iff_digit]
  · have hd := decode_encode_with_higher_digits (mk a target) [p3] (w := w) h (by
      rw [hsum, hparams, hw]
      push_cast [List.length]
      norm_num)
    rwa [hwords] at hd

/-! ### The execute part of format F2RR (R93, R130, R131) -/

section F2RR
variable {mk : Param → Param → Instr} {c : Word → Bool}
  (heff : ∀ a target s, effectOf (mk a target) s = jumpEffect c a target s)
include heff

theorem takesParamErrors_of_jumpEffect
    (hparams : ∀ a target, (mk a target).params = [(.read, a), (.read, target)]) (s : State) (a target : Param) :
    TakesParamErrors (mk a target) s := by
  intro e h
  rw [hparams] at h
  exact exec_of_error ((heff a target s).trans (jumpEffect_eq_error.mpr (.inl h)))

/-- An instruction whose condition holds exactly where the jump is to be taken: a taken jump looks at the target's sign,
one not taken at the successor. -/
theorem jumps_of_jumpEffect {taken : Int → Prop} (hc : ∀ x, c x = true ↔ taken x.toInt) : Jumps mk taken := by
  intro s a target x y hx hy
  have error {e : Raise} (he : jumpEffect c a target s = .error e) : exec (mk a target) s = .next (failedState s e) :=
    exec_of_error ((heff a target s).trans he)
  have goto {n : Nat} (he : jumpEffect c a target s = .ok { control := .goto n }) :
      exec (mk a target) s = .next { s with ip := n } := exec_of_effect ((heff a target s).trans he)
  have not_taken (ht : ¬ taken x.toInt) : c x = false := Bool.eq_false_iff.mpr ((hc x).not.mpr ht)
  refine ⟨fun ht hneg => error ?_, fun ht hnn => goto ?_, fun ht hn => error ?_, fun ht hn => goto ?_⟩
  · exact jumpEffect_eq_error.mpr (.inr ⟨x, y, hx, hy, .inl ⟨(hc x).mpr ht, hneg, rfl⟩⟩)
  · exact jumpEffect_eq_ok.mpr ⟨x, y, hx, hy, .inl ⟨(hc x).mpr ht, hnn, rfl⟩⟩
  · exact jumpEffect_eq_error.mpr (.inr ⟨x, y, hx, hy, .inr ⟨not_taken ht, by omega, rfl⟩⟩)
  · exact jumpEffect_eq_ok.mpr ⟨x, y, hx, hy, .inr ⟨not_taken ht, by omega, rfl⟩⟩

end F2RR

/-! ### `jt` and `jf` (R130, R131) -/

theorem nonZero_eq_true_iff (x : Word) : nonZero x = true ↔ x.toInt ≠ 0 := decide_eq_true_iff

theorem not_nonZero_eq_true_iff (x : Word) : (!nonZero x) = true ↔ x.toInt = 0 := by
  rw [Bool.not_eq_true', Bool.eq_false_iff, Ne, nonZero_eq_true_iff, not_not]

/-- An instruction of format F2RR with the given opcode, which jumps where its condition holds. -/
theorem conditionalJump_follows_rule {mk : Param → Param → Instr} {op : Nat} {c : Word → Bool} {taken : Int → Prop}
    (hop : ∀ a target, (mk a target).opcode = op)
    (hparams : ∀ a target, (mk a target).params = [(.read, a), (.read, target)])
    (heff : ∀ a target s, effectOf (mk a target) s = jumpEffect c a target s)
    (hc : ∀ x, c x = true ↔ taken x.toInt) :
    EncodedF2RR mk op ∧ (∀ s a target, TakesParamErrors (mk a target) s) ∧ Jumps mk taken :=
  ⟨encodedF2RR_of_params hop hparams, takesParamErrors_of_jumpEffect heff hparams, jumps_of_jumpEffect heff hc⟩

/-- Settles O12: `jt` is opcode 5, and its condition is that the operand is not 0. -/
theorem jtFollowsItsRule : Obligations.JtFollowsItsRule :=
  conditionalJump_follows_rule (fun _ _ => rfl) (fun _ _ => rfl) (fun _ _ _ => rfl) nonZero_eq_true_iff

/-- Settles O13: `jf` is opcode 6, and its condition is that the operand is 0. -/
theorem jfFollowsItsRule : Obligations.JfFollowsItsRule :=
  conditionalJump_follows_rule (fun _ _ => rfl) (fun _ _ => rfl) (fun _ _ _ => rfl) not_nonZero_eq_true_iff

end Sys2Proof.Machine
end

section
/-! SUPPORT. Comparison (44_compare.md): `lt` and `eq` are of format F3RRW and differ in the opcode and the relation
alone. -/

namespace Sys2Proof.Machine

/-- An instruction of format F3RRW with the given opcode, whose result is the truth word of a relation of the two
operands. It is always a word, so the instruction has no overflow of the result. -/
theorem comparison_follows_rule {mk : Param → Param → Param → Instr} {op : Nat} {rel : Int → Int → Prop}
    [∀ x y, Decidable (rel x y)] (hop : ∀ a b dst, (mk a b dst).opcode = op)
    (hparams : ∀ a b dst, (mk a b dst).params = [(.read, a), (.read, b), (.write, dst)])
    (heff : ∀ a b dst s,
      effectOf (mk a b dst) s = threeParams (fun x y => .ok (truthWord (decide (rel x.toInt y.toInt)))) a b dst s) :
    EncodedF3RRW mk op ∧ (∀ s a b dst, TakesParamErrors (mk a b dst) s) ∧
      StoresResult mk (fun x y => if rel x y then 1 else 0) :=
  ⟨encodedF3RRW_of_params hop hparams, takesParamErrors_of_threeParams heff hparams,
    storesResult_of_threeParams heff fun x y _ => congrArg Except.ok (truthWord_decide (rel x.toInt y.toInt))⟩

/-- Settles O14: `lt` is opcode 7, and its relation is the signed order of the two words. -/
theorem ltFollowsItsRule : Obligations.LtFollowsItsRule :=
  comparison_follows_rule (rel := fun x y => x < y) (fun _ _ _ => rfl) (fun _ _ _ => rfl) fun _ _ _ _ => rfl

/-- Settles O15: `eq` is opcode 8, and its relation is the equality of the two words. -/
theorem eqFollowsItsRule : Obligations.EqFollowsItsRule :=
  comparison_follows_rule (rel := fun x y => x = y) (fun _ _ _ => rfl) (fun _ _ _ => rfl) fun _ _ _ _ => rfl

end Sys2Proof.Machine
end

section
/-! SUPPORT. Base adjust and halt (45_base_and_halt.md): the three outcomes of `arb` once its parameter resolves, and what
`hlt` leaves. -/

namespace Sys2Proof.Machine

/-! ### `arb` (R150) -/

theorem takesParamErrors_arb (s : State) (a : Param) : TakesParamErrors (.arb a) s := by
  rintro e (h | ⟨-, h⟩)
  · exact exec_of_error (baseEffect_eq_error.mpr (.inl h))
  · exact h.elim

section Resolved
variable {s : State} {a : Param} {x : Word} (hx : ReadsAs s 1 a x)
include hx

theorem exec_arb_of_base_overflow (hv : ¬ InRange (s.rb.toInt + x.toInt)) :
    exec (.arb a) s = .next (failedState s ⟨.arithmeticOverflow, 0, s.rb.toInt + x.toInt⟩) :=
  exec_of_error (baseEffect_eq_error.mpr (.inr ⟨x, hx, .inl ⟨hv, rfl⟩⟩))

theorem exec_arb_of_successor_overflow (hv : InRange (s.rb.toInt + x.toInt)) (hn : wmax < (s.ip : Int) + 2) :
    exec (.arb a) s = .next (failedState s ⟨.arithmeticOverflow, 0, (s.ip : Int) + 2⟩) :=
  exec_of_error (baseEffect_eq_error.mpr (.inr ⟨x, hx, .inr ⟨hv, by omega, rfl⟩⟩))

theorem exec_arb_of_inRange (hv : InRange (s.rb.toInt + x.toInt)) (hn : (s.ip : Int) + 2 ≤ wmax) :
    exec (.arb a) s = .next { s with rb := Word.ofInt (s.rb.toInt + x.toInt), ip := s.ip + 2 } := by
  have he : effectOf (.arb a) s =
      .ok { base := some (Word.ofInt (s.rb.toInt + x.toInt)), control := .goto (s.ip + 2) } :=
    baseEffect_eq_ok.mpr ⟨x, hx, hv, by omega, rfl⟩
  exact exec_of_effect he

end Resolved

/-- Settles O16: by the three outcomes of `arb` once its parameter resolves: the new base is no word, the successor
overflows, or the base and `ip` alone are written. -/
theorem arbFollowsItsRule : Obligations.ArbFollowsItsRule := by
  refine ⟨encodedF1_of_params (fun _ => rfl) (fun _ => rfl) fun a => readable_iff_digit a.mode,
    takesParamErrors_arb, fun s a x hx =>
      ⟨exec_arb_of_base_overflow hx, exec_arb_of_successor_overflow hx, fun hv hn => ?_⟩⟩
  exact ⟨_, exec_arb_of_inRange hx hv hn, toInt_ofInt hv, rfl, rfl, rfl, rfl, rfl, rfl⟩

/-! ### `hlt` (R151) -/

theorem exec_hlt (s : State) : exec .hlt s = .next (s.setRunState .halted) := rfl

theorem runResult_setRunState_halted (s : State) : runResult (s.setRunState .halted) = .returned s.output := rfl

/-- Settles O17: by the words that decode to `hlt`, and because the state after a halt shows the output sequence, and a
state that shows a result has no step. -/
theorem hltFollowsItsRule : Obligations.HltFollowsItsRule := by
  refine ⟨rfl, fun f => decode_eq_hlt_iff, exec_hlt, fun s t h => ?_⟩
  obtain rfl : s.setRunState .halted = t := Host.Outcome.next.inj ((exec_hlt s).symm.trans h)
  have hresult := runResult_setRunState_halted s
  exact ⟨hresult, no_step_of_runResult (by simp [hresult])⟩

end Sys2Proof.Machine
end

section
/-! SUPPORT. The program text (R160 to R162): each stage of the loader's parser against its part of the grammar, from
the digits up to the whole text. -/

namespace Sys2Proof.Machine

/-! ### Digits -/

@[simp] theorem digitValue_digitChar (d : Fin 10) : digitValue (digitChar d) = some d.val := by
  revert d; decide

theorem digitValue_eq_some_iff {c : Char} {n : Nat} :
    digitValue c = some n ↔ ∃ d : Fin 10, digitChar d = c ∧ d.val = n := by
  constructor
  · unfold digitValue
    split
    · next hc =>
      intro h
      obtain rfl := Option.some.inj h
      refine ⟨⟨c.toNat - 48, by omega⟩, ?_, rfl⟩
      rw [digitChar, show 48 + (c.toNat - 48) = c.toNat by omega, Char.ofNat_toNat]
    · exact nofun
  · rintro ⟨d, rfl, rfl⟩
    exact digitValue_digitChar d

/-- R162: the decimal value of digits is that of the digits of their characters. -/
theorem decimalValue_eq_some_iff {n : Nat} : ∀ {cs : List Char} {acc : Nat},
    decimalValue acc cs = some n ↔
      ∃ ds : List (Fin 10), ds.map digitChar = cs ∧ ds.foldl (fun acc d => 10 * acc + d.val) acc = n
  | [], acc => by simp [decimalValue]
  | c :: cs, acc => by
    constructor
    · intro h
      unfold decimalValue at h
      split at h
      · cases h
      · next d hd =>
        obtain ⟨d, rfl, rfl⟩ := digitValue_eq_some_iff.mp hd
        obtain ⟨ds, rfl, rfl⟩ := decimalValue_eq_some_iff.mp h
        exact ⟨d :: ds, rfl, rfl⟩
    · rintro ⟨_ | ⟨d, ds⟩, hcs, rfl⟩
      · cases hcs
      · obtain ⟨rfl, rfl⟩ := List.cons.inj hcs
        rw [decimalValue, digitValue_digitChar]
        exact decimalValue_eq_some_iff.mpr ⟨ds, rfl, rfl⟩

/-! ### Tokens -/

/-- R161: a text with an unsigned value is that of a token without a minus sign. -/
theorem unsignedValue_eq_some_iff {cs : List Char} {n : Nat} :
    unsignedValue cs = some n ↔
      ∃ ds : List (Fin 10), ds ≠ [] ∧ (Token.mk false ds).text = cs ∧ (Token.mk false ds).value = n := by
  cases cs with
  | nil => simp [unsignedValue, Token.text]
  | cons c cs =>
    rw [unsignedValue, decimalValue_eq_some_iff]
    constructor
    · rintro ⟨ds, hcs, rfl⟩
      exact ⟨ds, List.map_eq_nil_iff.not.mp (hcs ▸ List.cons_ne_nil c cs), hcs, rfl⟩
    · rintro ⟨ds, -, hcs, hn⟩
      exact ⟨ds, hcs, Int.ofNat.inj hn⟩

theorem digitChar_ne_minus (d : Fin 10) : digitChar d ≠ '-' := by
  revert d; decide

theorem tokenValue_minus (cs : List Char) :
    tokenValue ('-' :: cs) = (unsignedValue cs).map (fun n : Nat => -(n : Int)) := by
  rw [tokenValue, if_pos rfl]
  cases unsignedValue cs <;> rfl

theorem tokenValue_of_ne_minus {c : Char} (h : c ≠ '-') (cs : List Char) :
    tokenValue (c :: cs) = (unsignedValue (c :: cs)).map (fun n : Nat => (n : Int)) := by
  rw [tokenValue, if_neg h]
  cases unsignedValue (c :: cs) <;> rfl

/-- R161: the texts that have a value are those of the tokens with a digit. -/
theorem tokenValue_eq_some_iff {cs : List Char} {v : Int} :
    tokenValue cs = some v ↔ ∃ t : Token, t.digits ≠ [] ∧ t.text = cs ∧ t.value = v := by
  constructor
  · intro h
    cases cs with
    | nil => cases h
    | cons c cs =>
      by_cases hc : c = '-'
      · rw [hc, tokenValue_minus, Option.map_eq_some_iff] at h
        obtain ⟨n, hn, rfl⟩ := h
        obtain ⟨ds, hne, rfl, hv⟩ := unsignedValue_eq_some_iff.mp hn
        exact ⟨⟨true, ds⟩, hne, hc ▸ rfl, congrArg Neg.neg hv⟩
      · rw [tokenValue_of_ne_minus hc, Option.map_eq_some_iff] at h
        obtain ⟨n, hn, rfl⟩ := h
        obtain ⟨ds, hne, ht, hv⟩ := unsignedValue_eq_some_iff.mp hn
        exact ⟨⟨false, ds⟩, hne, ht, hv⟩
  · rintro ⟨⟨minus, _ | ⟨d, ds⟩⟩, hne, rfl, rfl⟩
    · exact absurd rfl hne
    · have hu := unsignedValue_eq_some_iff.mpr ⟨d :: ds, hne, rfl, rfl⟩
      cases minus with
      | true => exact (tokenValue_minus _).trans (hu ▸ rfl)
      | false => exact (tokenValue_of_ne_minus (digitChar_ne_minus d) _).trans (hu ▸ rfl)

/-- R162: the word of a token. -/
def Token.toWord (t : Token) : Word := Word.ofInt t.value

theorem Token.toWord_toInt {t : Token} (h : t.legal) : t.toWord.toInt = t.value := toInt_ofInt h.2

theorem tokenWord_eq_some_iff {cs : List Char} {w : Word} :
    tokenWord cs = some w ↔ ∃ t : Token, t.legal ∧ t.text = cs ∧ t.toWord = w := by
  constructor
  · unfold tokenWord
    split
    · exact nofun
    · next v hv =>
      obtain ⟨t, hne, hcs, rfl⟩ := tokenValue_eq_some_iff.mp hv
      split
      · next hr => exact fun h => ⟨t, ⟨hne, hr⟩, hcs, Option.some.inj h⟩
      · exact nofun
  · rintro ⟨t, ⟨hne, hr⟩, hcs, rfl⟩
    rw [tokenWord, tokenValue_eq_some_iff.mpr ⟨t, hne, hcs, rfl⟩]
    exact if_pos hr

theorem tokenWords_eq_some_iff {ws : List Word} : ∀ {css : List (List Char)},
    tokenWords css = some ws ↔
      ∃ tokens : List Token, (∀ t ∈ tokens, t.legal) ∧ tokens.map Token.text = css ∧ tokens.map Token.toWord = ws
  | [] => by
    constructor
    · intro h
      exact ⟨[], nofun, rfl, Option.some.inj h⟩
    · rintro ⟨tokens, -, hcss, rfl⟩
      obtain rfl := List.map_eq_nil_iff.mp hcss
      rfl
  | cs :: css => by
    constructor
    · intro h
      unfold tokenWords at h
      split at h
      · next w ws' hw hws =>
        obtain ⟨t, ht, rfl, rfl⟩ := tokenWord_eq_some_iff.mp hw
        obtain ⟨tokens, hts, rfl, rfl⟩ := tokenWords_eq_some_iff.mp hws
        exact ⟨t :: tokens, List.forall_mem_cons.mpr ⟨ht, hts⟩, rfl, Option.some.inj h⟩
      · cases h
    · rintro ⟨_ | ⟨t, tokens⟩, hl, hcss, rfl⟩
      · cases hcss
      · obtain ⟨rfl, rfl⟩ := List.cons.inj hcss
        obtain ⟨ht, hts⟩ := List.forall_mem_cons.mp hl
        rw [tokenWords, tokenWord_eq_some_iff.mpr ⟨t, ht, rfl, rfl⟩, tokenWords_eq_some_iff.mpr ⟨tokens, hts, rfl, rfl⟩]
        rfl

/-! ### Commas and whitespace -/

theorem splitCommas_eq_splitOn : ∀ cs : List Char, splitCommas cs = cs.splitOn ','
  | [] => (List.splitOn_nil ',').symm
  | c :: cs => by
    rw [splitCommas, splitCommas_eq_splitOn cs, List.splitOn_cons_eq_if_modifyHead]
    cases h : cs.splitOn ',' with
    | nil => exact absurd h (List.splitOn_ne_nil ',' cs)
    | cons t ts => simp [List.modifyHead]

theorem tokensText_eq_intercalate : ∀ tokens : List Token, tokensText tokens = [','].intercalate (tokens.map Token.text)
  | [] => rfl
  | [t] => by simp [tokensText]
  | t :: u :: rest => by
    rw [tokensText, tokensText_eq_intercalate (u :: rest)]
    simp only [List.map_cons, List.intercalate_cons_cons, List.append_assoc, List.singleton_append]

theorem digitChar_not_comma_or_space (d : Fin 10) : digitChar d ≠ ',' ∧ isSpace (digitChar d) = false := by
  revert d; decide

/-- R161: no character of a token is a comma or whitespace. -/
theorem Token.not_comma_or_space {t : Token} {c : Char} (h : c ∈ t.text) : c ≠ ',' ∧ isSpace c = false := by
  obtain h | h := List.mem_append.mp h
  · split at h
    · obtain rfl := List.mem_singleton.mp h
      decide
    · exact absurd h List.not_mem_nil
  · obtain ⟨d, -, rfl⟩ := List.mem_map.mp h
    exact digitChar_not_comma_or_space d

/-- R161: no character of separated tokens is whitespace. -/
theorem not_space_of_mem_tokensText {c : Char} : ∀ {tokens : List Token}, c ∈ tokensText tokens → isSpace c = false
  | [t], h => (Token.not_comma_or_space h).2
  | t :: u :: rest, h => by
    rw [tokensText, List.mem_append, List.mem_cons] at h
    obtain h | rfl | h := h
    · exact (Token.not_comma_or_space h).2
    · rfl
    · exact not_space_of_mem_tokensText h

theorem splitCommas_tokensText {tokens : List Token} (h : tokens ≠ []) :
    splitCommas (tokensText tokens) = tokens.map Token.text := by
  rw [splitCommas_eq_splitOn, tokensText_eq_intercalate]
  refine List.splitOn_intercalate ',' ?_ (by simpa using h)
  intro cs hcs hmem
  obtain ⟨t, -, rfl⟩ := List.mem_map.mp hcs
  exact (Token.not_comma_or_space hmem).1 rfl

/-- Texts between commas that are those of tokens make up the text of these tokens, of which there is at least one. -/
theorem eq_tokensText_of_splitCommas {cs : List Char} {tokens : List Token}
    (h : tokens.map Token.text = splitCommas cs) :
    tokens ≠ [] ∧ cs = tokensText tokens := by
  rw [splitCommas_eq_splitOn] at h
  constructor
  · rintro rfl
    exact List.splitOn_ne_nil ',' cs h.symm
  · rw [tokensText_eq_intercalate, h, List.intercalate_splitOn]

theorem isSpace_iff {c : Char} : isSpace c = true ↔ c ∈ [' ', '\t', '\r', '\n'] := by
  simp [isSpace, or_assoc]

theorem trimText_eq_rdropWhile (text : List Char) : trimText text = (text.dropWhile isSpace).rdropWhile isSpace := rfl

/-- R160: trimming takes away whitespace at the two ends alone. -/
theorem exists_spaces_around_trimText (text : List Char) :
    ∃ pre post, (∀ c ∈ pre, isSpace c = true) ∧ (∀ c ∈ post, isSpace c = true) ∧
      text = pre ++ trimText text ++ post := by
  refine ⟨text.takeWhile isSpace, (text.dropWhile isSpace).rtakeWhile isSpace, fun _ => List.mem_takeWhile_imp,
    fun _ => List.mem_rtakeWhile_imp, ?_⟩
  rw [trimText_eq_rdropWhile, List.append_assoc, List.rdropWhile_append_rtakeWhile, List.takeWhile_append_dropWhile]

theorem rdropWhile_append_of_pos {α : Type} {p : α → Bool} {l r : List α} (h : ∀ c ∈ r, p c = true) :
    (l ++ r).rdropWhile p = l.rdropWhile p := by
  rw [List.rdropWhile, List.reverse_append, List.dropWhile_append_of_pos (by simpa using h), ← List.rdropWhile]

/-- R160: trimming takes away all the whitespace at the two ends. -/
theorem trimText_of_spaces_around {pre body post : List Char} (hpre : ∀ c ∈ pre, isSpace c = true)
    (hbody : ∀ c ∈ body, isSpace c = false) (hpost : ∀ c ∈ post, isSpace c = true) :
    trimText (pre ++ body ++ post) = body := by
  rw [trimText_eq_rdropWhile, List.append_assoc, List.dropWhile_append_of_pos hpre]
  cases body with
  | nil => rw [List.nil_append, List.dropWhile_eq_nil_iff.mpr hpost, List.rdropWhile_nil]
  | cons c cs =>
    have hc : (c :: cs ++ post).dropWhile isSpace = c :: cs ++ post :=
      List.dropWhile_cons_of_neg (by simp [hbody c])
    have hlast : ¬ isSpace ((c :: cs).getLast (List.cons_ne_nil c cs)) := by
      simp [hbody _ (List.getLast_mem (List.cons_ne_nil c cs))]
    rw [hc, rdropWhile_append_of_pos hpost, List.rdropWhile_eq_self_iff.mpr fun _ => hlast]

/-! ### The whole text -/

/-- R160 to R163: the texts that have an image are the program texts, and the image holds their tokens' words. -/
theorem parseImage_eq_some_iff {text : List Char} {image : List Word} :
    parseImage text = some image ↔ ∃ tokens, IsProgramText text tokens ∧ tokens.map Token.toWord = image := by
  rw [parseImage, tokenWords_eq_some_iff]
  constructor
  · rintro ⟨tokens, hl, hcss, himage⟩
    obtain ⟨hne, htrim⟩ := eq_tokensText_of_splitCommas hcss
    obtain ⟨pre, post, hpre, hpost, htext⟩ := exists_spaces_around_trimText text
    rw [htrim] at htext
    exact ⟨tokens, ⟨hne, hl, pre, post, fun c hc => isSpace_iff.mp (hpre c hc), fun c hc => isSpace_iff.mp (hpost c hc),
      htext⟩, himage⟩
  · rintro ⟨tokens, ⟨hne, hl, pre, post, hpre, hpost, rfl⟩, himage⟩
    refine ⟨tokens, hl, ?_, himage⟩
    rw [trimText_of_spaces_around (fun c hc => isSpace_iff.mpr (hpre c hc)) (fun _ => not_space_of_mem_tokensText)
      (fun c hc => isSpace_iff.mpr (hpost c hc)), splitCommas_tokensText hne]

end Sys2Proof.Machine
end

section
/-! SUPPORT. The host interface (50_loader_and_host.md): the state the loader gives, the start of `run`, and the debug
view. -/

namespace Sys2Proof.Machine

/-! ### The loader (R161 to R164) -/

/-- R164: the loader accepts the program texts, and gives the state whose image is the words of the tokens. -/
theorem load_eq_ok_iff {cfg : Config} {text : List Char} {s : State} :
    load cfg text = .ok s ↔ ∃ tokens, IsProgramText text tokens ∧ s = loadedState cfg (tokens.map Token.toWord) := by
  constructor
  · intro h
    unfold load at h
    split at h
    · cases h
    · next image himage =>
      obtain ⟨tokens, ht, rfl⟩ := parseImage_eq_some_iff.mp himage
      exact ⟨tokens, ht, (Except.ok.inj h).symm⟩
  · rintro ⟨tokens, ht, rfl⟩
    rw [load, parseImage_eq_some_iff.mpr ⟨tokens, ht, rfl⟩]

/-- R164: the loader's one error is ProgramFormatError. -/
theorem load_eq_error_iff {cfg : Config} {text : List Char} :
    load cfg text = .error .programFormatError ↔ ∀ s, load cfg text ≠ .ok s := by
  unfold load
  split
  · exact ⟨fun _ => nofun, fun _ => rfl⟩
  · exact ⟨nofun, fun h => absurd rfl (h _)⟩

/-- R161: between two tokens of a program text there is a comma. -/
theorem length_le_tokensText : ∀ tokens : List Token, tokens.length ≤ (tokensText tokens).length + 1
  | [] => Nat.zero_le _
  | [t] => Nat.le_add_left _ _
  | t :: u :: rest => by
    have ih := length_le_tokensText (u :: rest)
    simp only [tokensText, List.length_append, List.length_cons] at ih ⊢
    omega

theorem IsProgramText.length_le {text : List Char} {tokens : List Token} (h : IsProgramText text tokens) :
    tokens.length ≤ text.length + 1 := by
  obtain ⟨-, -, pre, post, -, -, rfl⟩ := h
  have := length_le_tokensText tokens
  simp only [List.length_append]
  omega

/-- Settles O38: the texts that have an image are the program texts, and the loader's one error is
ProgramFormatError. -/
theorem loaderAcceptsExactlyTheGrammar : Obligations.LoaderAcceptsExactlyTheGrammar := by
  intro cfg text
  have haccepts : (∃ s, load cfg text = .ok s) ↔ ∃ tokens, IsProgramText text tokens := by
    constructor
    · rintro ⟨s, hs⟩
      obtain ⟨tokens, ht, -⟩ := load_eq_ok_iff.mp hs
      exact ⟨tokens, ht⟩
    · rintro ⟨tokens, ht⟩
      exact ⟨_, load_eq_ok_iff.mpr ⟨tokens, ht, rfl⟩⟩
  exact ⟨haccepts, fun hno => load_eq_error_iff.mpr (not_exists.mp (haccepts.not.mpr hno))⟩

/-! ### The start of `run` (R101, R165, R166) -/

theorem start_of_loaded (q : List Word) {s : State} (h : s.status.state = .loaded) :
    start q s =
      .next { s with input := q, output := [], ip := 0, rb := 0, status := { s.status with state := .running } } := by
  rw [start, h]

theorem start_of_not_loaded (q : List Word) {s : State} (h : s.status.state ≠ .loaded) :
    start q s = .refused (.runNotAccepted s.status.state) := by
  cases hs : s.status.state with
  | loaded => exact absurd hs h
  | running => rw [start, hs]
  | halted => rw [start, hs]
  | failed => rw [start, hs]

/-- R166: `run` is accepted in LOADED alone. -/
theorem loaded_of_start {q : List Word} {s t : State} (h : start q s = .next t) : s.status.state = .loaded := by
  by_contra hs
  rw [start_of_not_loaded q hs] at h
  cases h

/-- Settles O40: a started state is RUNNING, hence not LOADED, and a state that is not LOADED refuses `run`. -/
theorem runIsAcceptedOnlyOnce : Obligations.RunIsAcceptedOnlyOnce := by
  intro q s
  constructor
  · intro hs
    exact ⟨_, start_of_loaded q hs, rfl, fun q' => ⟨_, start_of_not_loaded q' nofun⟩⟩
  · exact fun hs => ⟨_, start_of_not_loaded q hs⟩

/-! ### The state after construction and at the start of `run` (R29) -/

theorem loadedState_inv {cfg : Config} {image : List Word} (h : (image.length : Int) ≤ wmax + 1) :
    (loadedState cfg image).Inv where
  memory := Memory.ofImage_wf image
  extent := h
  ip := show (0 : Int) ≤ wmax by decide
  cause := ⟨fun _ => nofun, fun _ => rfl⟩
  runtime := nofun
  clear := fun _ => ⟨rfl, rfl, rfl, rfl⟩
  failed := nofun
  halted := nofun
  loaded := fun _ => ⟨rfl, rfl, rfl, rfl⟩

/-- `run` keeps the invariant: it starts from LOADED, where the rest of STATUS is 0. -/
theorem start_inv {q : List Word} {s t : State} (hi : s.Inv) (h : start q s = .next t) : t.Inv := by
  have hs := loaded_of_start h
  have hf : s.status.state ≠ .failed := by simp [hs]
  obtain rfl := Host.Outcome.next.inj ((start_of_loaded q hs).symm.trans h)
  exact
    { memory := hi.memory
      extent := hi.extent
      ip := show (0 : Int) ≤ wmax by decide
      cause := ⟨fun _ => nofun, fun _ => hi.cause.mpr hf⟩
      runtime := hi.runtime
      clear := fun _ => hi.clear hf
      failed := nofun
      halted := nofun
      loaded := nofun }

/-- Settles O37: an image has at most one word more than its text has characters, and `run` starts from LOADED. -/
theorem loadAndStartMeetTheInvariant : Obligations.LoadAndStartMeetTheInvariant := by
  refine ⟨fun cfg text s hlen h => ?_, fun q s t => start_inv⟩
  obtain ⟨tokens, ht, rfl⟩ := load_eq_ok_iff.mp h
  have hle := ht.length_le
  exact loadedState_inv (by rw [List.length_map]; omega)

/-- R163: cell `i` of a loaded memory is the value of token `i`. -/
theorem read_ofImage_tokens {tokens : List Token} {i : Nat} {t : Token} (hl : t.legal) (h : tokens[i]? = some t) :
    ((Memory.ofImage (tokens.map Token.toWord)).read i).toInt = t.value := by
  rw [Memory.read_ofImage, List.getD_eq_getElem?_getD, List.getElem?_map, h]
  exact Token.toWord_toInt hl

/-- Settles O39: a program text loads as the words of its tokens, whose cells are their values; `run` starts it from the
reset values. -/
theorem loadedInstanceHasItsResetValues : Obligations.LoadedInstanceHasItsResetValues := by
  intro cfg text tokens ht
  have hextent : (Memory.ofImage (tokens.map Token.toWord)).extent = tokens.length := List.length_map _
  have ⟨_, hl, _⟩ := ht
  refine ⟨_, load_eq_ok_iff.mpr ⟨tokens, ht, rfl⟩, hextent, ?_, ?_, fun _ => rfl, rfl, rfl, rfl, rfl, rfl, rfl, ?_⟩
  · exact fun i t h => read_ofImage_tokens (hl t (List.mem_of_getElem? h)) h
  · exact fun i h => Memory.read_beyond (hextent.trans_le h)
  · exact fun q => ⟨_, start_of_loaded q rfl, rfl, rfl, rfl, rfl, rfl, rfl, rfl⟩

/-! ### The debug view (R169) -/

theorem memoryImage_length (m : Memory) : (memoryImage m).length = m.extent := by
  rw [memoryImage, List.length_map, List.length_range]

theorem memoryImage_getElem? {m : Memory} {a : Nat} (h : a < m.extent) : (memoryImage m)[a]? = some (m.read a) := by
  rw [memoryImage, List.getElem?_map, List.getElem?_range h, Option.map_some]

section Ended
variable {s : State} (h : s.status.state = .halted ∨ s.status.state = .failed)
include h

theorem debugView_of_ended : debugView s = some ⟨memoryImage s.mem, s.ip, s.rb, s.status⟩ := by
  obtain h | h := h <;> rw [debugView, h]

theorem debugRead_of_ended (a : Nat) : debugRead s a = some (s.read a) := by
  obtain h | h := h <;> rw [debugRead, h]

end Ended

section NotEnded
variable {s : State} (h : s.status.state = .loaded ∨ s.status.state = .running)
include h

theorem debugView_of_not_ended : debugView s = none := by
  obtain h | h := h <;> rw [debugView, h]

theorem debugRead_of_not_ended (a : Nat) : debugRead s a = none := by
  obtain h | h := h <;> rw [debugRead, h]

end NotEnded

/-- Settles O43: by the two ended and the two other run states. -/
theorem debugViewShowsEndedRuns : Obligations.DebugViewShowsEndedRuns := by
  intro s
  constructor
  · intro h
    exact ⟨_, debugView_of_ended h, memoryImage_length s.mem, fun _ => memoryImage_getElem?, rfl, rfl, rfl,
      debugRead_of_ended h⟩
  · exact fun h => ⟨debugView_of_not_ended h, debugRead_of_not_ended h⟩

end Sys2Proof.Machine
end

section
/-! SUPPORT. Exceptions (60_exceptions.md): the record that each cause leaves, and where CapacityExceeded can occur. -/

namespace Sys2Proof.Machine

/-! ### The fault record (R180, R181) -/

/-- R181: the parameter and the value that each error of a step at `s` carries. -/
def RecordFits (s : State) (e : Raise) : Prop :=
  match e.error with
  | .programFormatError => False
  | .invalidOpcode => e.param = 0 ∧ e.value = (s.read s.ip).toInt
  | .invalidOperand =>
    e.param ≠ 0 ∧ e.value = (s.read s.ip).toInt / 10 ^ (e.param.val + 1) % 10 ∧ e.value ≠ 0 ∧ e.value ≠ 2
  | .addressError => e.param ≠ 0 ∧ e.value < 0
  | .inputExhausted => e.param = 1 ∧ e.value = 0 ∧ s.input = []
  | .arithmeticOverflow => ¬ InRange e.value
  | .capacityExceeded => e.param ≠ 0 ∧ (s.cfg.memLimit : Int) ≤ e.value

/-- The error of parameter `k`, where the mode digit of the parameter is digit `k + 1` of the word at `ip` (R63). -/
theorem ParamRecord.recordFits {s : State} {k : Fin 4} {p : Param} {e : Raise} (h : ParamRecord s k p e) (hk : k ≠ 0)
    (hmode : (p.mode.digit : Int) = (s.read s.ip).toInt / 10 ^ (k.val + 1) % 10) : RecordFits s e := by
  obtain ⟨rfl, ⟨he, hv, h0, h2⟩ | ⟨he, hv⟩ | ⟨he, hv⟩ | ⟨he, hv, -⟩⟩ := h <;> rw [RecordFits, he]
  · exact ⟨hk, hv.trans hmode, h0, h2⟩
  · exact ⟨hk, hv⟩
  · exact hv
  · exact ⟨hk, hv⟩

/-- The error of a parameter of the instruction that the words at `ip` decode to. -/
theorem recordFits_of_firstParamError {i : Instr} {s : State} {e : Raise} (hd : decode (fetch s) = .ok i)
    (h : FirstParamError s 1 i.params e) : RecordFits s e := by
  obtain ⟨j, q, hq, hr⟩ := firstParamError_record h
  obtain ⟨-, -, hmode, -⟩ := decodeReadsTheDecimalFields (fetch s) i hd
  have hk : (Fin.ofNat 4 (1 + j)).val = j + 1 := by
    obtain ⟨hj, -⟩ := List.getElem?_eq_some_iff.mp hq
    have hlen := i.params_length_le
    rw [Fin.val_ofNat]
    omega
  refine hr.recordFits (fun h0 => ?_) ?_
  · rw [h0] at hk
    cases hk
  · rw [hk]
    exact hmode j q hq

/-- The error of the instruction that the words at `ip` decode to. -/
theorem recordFits_of_effectOf_error {i : Instr} {s : State} {e : Raise} (hd : decode (fetch s) = .ok i)
    (h : effectOf i s = .error e) : RecordFits s e := by
  obtain hp | ⟨he, hr⟩ | ⟨he, hr⟩ | ⟨he, hk, hv⟩ := effectOf_error h
  · exact recordFits_of_firstParamError hd hp
  all_goals rw [RecordFits, he]
  · exact hr
  · exact hr
  · exact ⟨by simp [hk], hv⟩

/-- A failing step takes an error whose record fits it. -/
theorem exists_recordFits_of_step {s t : State} (h : step s = .next t) (ht : t.status.state = .failed) :
    ∃ e, t = failedState s e ∧ RecordFits s e := by
  obtain ⟨hr, ⟨-, rfl⟩ | ⟨_, e, -, -, rfl⟩ | ⟨_, e, hd, he, rfl⟩⟩ := step_cases h
  · exact ⟨_, rfl, rfl, rfl⟩
  · exact absurd ht (commit_state_ne_failed (by simp [hr]) e)
  · exact ⟨e, rfl, recordFits_of_effectOf_error hd he⟩

/-- Settles O19: the error that the step takes fits its record, cause by cause. -/
theorem faultRecordFitsItsCause : Obligations.FaultRecordFitsItsCause := by
  intro s t h ht
  obtain ⟨⟨error, param, value⟩, rfl, hr⟩ := exists_recordFits_of_step h ht
  cases error <;> exact hr

/-! ### A limit that no word reaches (R5, R187) -/

/-- Under a limit above every word, CapacityExceeded is no error of a parameter: its value is a word. -/
theorem ParamRecord.ne_capacityExceeded {s : State} {k : Fin 4} {p : Param} {e : Raise} (h : ParamRecord s k p e)
    (hl : wmax < (s.cfg.memLimit : Int)) : e.error ≠ .capacityExceeded := by
  obtain ⟨-, ⟨he, -⟩ | ⟨he, -⟩ | ⟨he, -⟩ | ⟨-, hv, -, hr⟩⟩ := h
  · simp [he]
  · simp [he]
  · simp [he]
  · exact absurd (hl.trans_le hv) (not_lt.mpr hr)

/-- Nor is it an error of an instruction: the execute part does not raise it. -/
theorem effectOf_error_ne_capacityExceeded {i : Instr} {s : State} {e : Raise} (h : effectOf i s = .error e)
    (hl : wmax < (s.cfg.memLimit : Int)) : e.error ≠ .capacityExceeded := by
  obtain hp | ⟨he, -⟩ | ⟨he, -⟩ | ⟨he, -⟩ := effectOf_error h
  · obtain ⟨_, _, -, hr⟩ := firstParamError_record hp
    exact hr.ne_capacityExceeded hl
  all_goals simp [he]

/-- Settles O22: a decode error has another cause, a commit keeps the cause, and no instruction raises
CapacityExceeded. -/
theorem defaultLimitNeverExceeded : Obligations.DefaultLimitNeverExceeded := by
  intro s t hc hl h
  obtain ⟨-, ⟨-, rfl⟩ | ⟨_, e, -, -, rfl⟩ | ⟨_, e, -, he, rfl⟩⟩ := step_cases h
  · exact nofun
  · rw [commit_cause, hc]
    exact nofun
  · exact fun hcause => effectOf_error_ne_capacityExceeded he hl (Option.some.inj hcause)

/-! ### At and beyond the limit (R43, R187) -/

/-- The checks at an address at or beyond the limit: an error for a write target, 0 for a read. -/
theorem checkTarget_and_memRead_beyond_limit {s : State} (i : Fin 4) {a : Int} (h : (s.cfg.memLimit : Int) ≤ a) :
    checkTarget s i a = .error ⟨.capacityExceeded, i, a⟩ ∧ memRead s i a = .ok 0 := by
  have h0 : 0 ≤ a := (Int.natCast_nonneg _).trans h
  obtain ⟨-, htarget, -⟩ := checkTarget_by_address s i a
  obtain ⟨-, -, hread, -⟩ := memRead_by_address s i a
  exact ⟨htarget h0 h, hread h0 h⟩

/-- Settles O45: both modes end in the checks of the resolved address, and no word reaches the default limit. -/
theorem capacityBoundsWritesAndNotReads : Obligations.CapacityBoundsWritesAndNotReads := by
  refine fun s => ⟨State.read_limit, fun i p hip => ⟨fun hp hl => ?_, fun hp hr hl => ?_, fun hcfg e he => ?_⟩⟩
  · rw [writeParam_position hip hp, readParam_position hip hp]
    exact checkTarget_and_memRead_beyond_limit i hl
  · rw [writeParam_relative hip hp hr, readParam_relative hip hp hr]
    exact checkTarget_and_memRead_beyond_limit i hl
  · have hl : wmax < (s.cfg.memLimit : Int) := by rw [hcfg]; decide
    exact (targetFails_record (writeParam_eq_error.mp he)).ne_capacityExceeded hl

end Sys2Proof.Machine
end
